-- ==== Sys2Proof/Word.lean ====
section
/-! DEFINITION. The three widths of the block (rules R5, R11, R12): bytes, half-blocks, blocks.
Every value is unsigned (R12); `+` on `Word` is `+32`, addition modulo 2^32, and `^^^` is `^`. -/

namespace Sys2Proof

/-- A byte (R13). -/
abbrev Byte := BitVec 8

/-- A 32-bit word: a half-block, a P-array entry, an S-box entry (R5). -/
abbrev Word := BitVec 32

/-- A 64-bit block; bit 63 is the most significant (R11). -/
abbrev Block := BitVec 64

end Sys2Proof
end

