-- ==== Sys2Proof/Machine/Operands.lean ====
section
/-! DEFINITION. Byte sequences and operand assembly: `BE8`, `BEval`, `tz` (R13), the halves of a block (R25), padding (R130), and
how each command's operand is cut out of DATA (R72). Byte order is decided here and nowhere else (R54 to R56). -/

namespace Sys2Proof.Machine

/-- Byte j of the big-endian rendering: `x[63-8j : 56-8j]`, for j = 0..7 (R13). -/
def byteOf (x : Block) (j : Nat) : Byte := x.extractLsb' (56 - 8 * j) 8

/-- `BE8(x)`: the 8 bytes of x, most significant first (R13, R54). -/
def be8 (x : Block) : List Byte := (List.range 8).map (byteOf x)

/-- The big-endian unsigned integer that a byte sequence writes, the first byte most significant (R13). -/
def beNat (b : List Byte) : Nat := b.foldl (fun v c => v * 256 + c.toNat) 0

/-- `BEval(b)`, for a sequence of at most 8 bytes, as a 64-bit value with zero high-order bits (R13). -/
def beVal (b : List Byte) : Block := BitVec.ofNat 64 (beNat b)

/-- `tz(x)`: the number of trailing zero bytes of `BE8(x)`, 0..8 (R13). -/
def tz (x : Block) : Nat := ((be8 x).reverse.takeWhile (· == 0#8)).length

/-- `8 - tz(x)` as a count of 0..8: how many bytes are left of x when its trailing zero bytes are stripped (R133). -/
def keptLen (x : Block) : Fin 9 := ⟨8 - tz x, by omega⟩

/-- The sequence right-padded with zero bytes to exactly 8 (R130). -/
def padTo8 (b : List Byte) : List Byte := (b ++ List.replicate 8 0#8).take 8

/-- `hi32(x) = x[63:32]`, the half L (R12, R25). -/
def hi32 (x : Block) : Word := x.extractLsb' 32 32

/-- `lo32(x) = x[31:0]`, the half R (R12, R25). -/
def lo32 (x : Block) : Word := x.extractLsb' 0 32

/-- `{L, R} = L * 2^32 + R` (R12, R25). -/
def joinHalves (l r : Word) : Block := BitVec.ofNat 64 (l.toNat * 2 ^ 32 + r.toNat)

/-- `zext_64(v)` (R12). -/
def zext64 (v : Word) : Block := v.setWidth 64

/-- The operand of ENC, DEC, UNPACK, USTRIP, DCHUNK: all of DATA (R72). -/
def blockOperand (data : Block) : Block := data

/-- The operand of FRND: `DATA[31:0]`; `DATA[63:32]` is ignored (R72). -/
def wordOperand (data : Block) : Word := lo32 data

/-- The operand of PACK and ECHUNK: `b[j] = DATA[63-8j : 56-8j]` for j < n; the rest of DATA is ignored (R72). -/
def bytesOperand (n : Nat) (data : Block) : List Byte := (be8 data).take n

/-- DATA with `b[j]` in bits `63-8j .. 56-8j` and zero elsewhere (R79, the expansion of PACKB). -/
def dataOfBytes (b : List Byte) : Block := beVal (padTo8 b)

end Sys2Proof.Machine
end

