-- ==== Sys2Proof/Syntax.lean ====
section
/-! DEFINITION. The commands of FCE-CMD8 (30_encoding.md): a raw transaction, the ten commands of the opcode map (R73), one
constructor per row of spec/opcode_table.json, each with the operand that R72 assembles for it, and the reasons a word is
`Unmatched` (R74, R76). -/

namespace Sys2Proof

/-- One transaction of the command port (R70): `CMD[7:0]` and `DATA[63:0]`. -/
structure Command where
  cmd : BitVec 8
  data : Block
  deriving DecidableEq, Repr

/-- A decoded command with its operand (R72). Ignored bits of DATA are no part of it (R77; log 13). -/
inductive Instr where
  /-- ENC (R111): block x. -/
  | enc (x : Block)
  /-- DEC (R112): block x. -/
  | dec (x : Block)
  /-- FRND (R113): word w. -/
  | frnd (w : Word)
  /-- PACK (R136): bytes b[0..n-1], n = LEN = the length of the list. -/
  | pack (b : List Byte)
  /-- UNPACK (R137): block x. -/
  | unpack (x : Block)
  /-- USTRIP (R138): block x. -/
  | ustrip (x : Block)
  /-- ECHUNK (R152): bytes b[0..n-1], n = LEN = the length of the list. -/
  | echunk (b : List Byte)
  /-- DCHUNK (R153): ciphertext block v. -/
  | dchunk (v : Block)
  /-- ECBE (R156): no operand. -/
  | ecbe
  /-- ECBD (R157): no operand. -/
  | ecbd
  deriving DecidableEq, Repr

/-- Why a command word decodes to `Unmatched` (R76 names the three cases). -/
inductive Unmatched where
  /-- OP 0x0 or 0xB to 0xF, reserved for future revisions. -/
  | reservedOp
  /-- A nonzero LEN on an opcode whose LEN must be 0. -/
  | lenNotZero
  /-- A LEN of 9 to 15 on PACK or ECHUNK. -/
  | lenAboveEight
  deriving DecidableEq, Repr

end Sys2Proof
end

