-- ==== Sys2Proof/Decode.lean ====
section
/-! DEFINITION. The decoder (R71 to R77), total on every transaction and rejecting by name, and after it the encoder, written from
R73 and R78; and the same for words numbered as spec/opcode_table.json numbers them. -/

namespace Sys2Proof

/-- `OP = CMD[7:4]` (R71). -/
def opField (w : BitVec 8) : BitVec 4 := w.extractLsb' 4 4

/-- `LEN = CMD[3:0]` (R71). -/
def lenField (w : BitVec 8) : BitVec 4 := w.extractLsb' 0 4

/-- A command whose LEN must be 0 (R71, R76). -/
def lenZero (len : BitVec 4) (i : Instr) : Except Unmatched Instr :=
  if len.toNat = 0 then .ok i else .error .lenNotZero

/-- A command whose LEN counts its bytes, 0..8 (R71, R76). -/
def lenUpTo8 (len : BitVec 4) (i : Instr) : Except Unmatched Instr :=
  if len.toNat ≤ 8 then .ok i else .error .lenAboveEight

/-- `decode` (R74), with the operand R72 assembles. DATA never decides whether a word matches. -/
def decode (c : Command) : Except Unmatched Instr :=
  let len := lenField c.cmd
  match (opField c.cmd).toNat with
  | 0x1 => lenZero len (.enc (Machine.blockOperand c.data))
  | 0x2 => lenZero len (.dec (Machine.blockOperand c.data))
  | 0x3 => lenZero len (.frnd (Machine.wordOperand c.data))
  | 0x4 => lenUpTo8 len (.pack (Machine.bytesOperand len.toNat c.data))
  | 0x5 => lenZero len (.unpack (Machine.blockOperand c.data))
  | 0x6 => lenZero len (.ustrip (Machine.blockOperand c.data))
  | 0x7 => lenUpTo8 len (.echunk (Machine.bytesOperand len.toNat c.data))
  | 0x8 => lenZero len (.dchunk (Machine.blockOperand c.data))
  | 0x9 => lenZero len .ecbe
  | 0xA => lenZero len .ecbd
  | _ => .error .reservedOp

/-- The transaction of a command (R73, R78): ignored DATA bits are written as zero, as R78 and R79 write them (log 13). -/
def encode : Instr → Command
  | .enc x => ⟨0x10, x⟩
  | .dec x => ⟨0x20, x⟩
  | .frnd w => ⟨0x30, Machine.zext64 w⟩
  | .pack b => ⟨0x40 + BitVec.ofNat 8 b.length, Machine.dataOfBytes b⟩
  | .unpack x => ⟨0x50, x⟩
  | .ustrip x => ⟨0x60, x⟩
  | .echunk b => ⟨0x70 + BitVec.ofNat 8 b.length, Machine.dataOfBytes b⟩
  | .dchunk v => ⟨0x80, v⟩
  | .ecbe => ⟨0x90, 0⟩
  | .ecbd => ⟨0xA0, 0⟩

/-- The transaction of a word numbered as spec/opcode_table.json numbers it: CMD is bits 7..0, and DATA the 64 bits that follow,
zero from bit `nbits` up. DESIGN CHOICE (the table numbers no DATA bit), safe: log 10. -/
def tableCommand (nbits w : Nat) : Command :=
  let v := w % 2 ^ nbits
  ⟨BitVec.ofNat 8 v, BitVec.ofNat 64 (v / 2 ^ 8)⟩

/-- The command the decoder reads from such a word; none where the word is `Unmatched`. -/
def decodeTableWord (nbits w : Nat) : Option Instr :=
  match decode (tableCommand nbits w) with
  | .ok i => some i
  | .error _ => none

end Sys2Proof
end

