-- ==== Sys2Proof/Config.lean ====
section
/-! DEFINITION. The parameters of an instance (rules R5 to R10, R235) and the model's free values.
A `Config` is plain data that State carries and no step writes (R10, R242), so a statement over every state is a statement
over every `P_INIT`, `S_INIT`, `K_INIT` and `SHORT_CT_MODE`. -/

namespace Sys2Proof

/-- `SHORT_CT_MODE` (R9): how ECBD reads a final ciphertext chunk shorter than 8 bytes. -/
inductive ShortCtMode where
  | zextHigh
  | padLow
  deriving DecidableEq, Repr

/-- The cipher parameters (R6 to R9, and the record `Config` of 10_state.md section 1). -/
structure Config where
  /-- `P_INIT`, 18 words (R6, R21). -/
  P : Vector Word 18
  /-- `S_INIT`, four tables of 256 words (R8, R22). -/
  S : Vector (Vector Word 256) 4
  /-- `K_INIT`, 14 words that nothing reads (R7, R23). -/
  K : Vector Word 14
  /-- `SHORT_CT_MODE` (R9). -/
  shortCtMode : ShortCtMode
  deriving DecidableEq, Repr

namespace Config

/-- `P_INIT` of the instance that State.reset describes: the spec never gives its values (R6, N1), so nothing in Lean can
evaluate it. DESIGN CHOICE, safe: log 9. -/
opaque pInit : Vector Word 18

/-- `K_INIT` of that instance, likewise open (R7, N2). DESIGN CHOICE, safe: log 9. -/
opaque kInit : Vector Word 14

/-- The documented default of `S_INIT`: four all-zero tables (R8). -/
def sDefault : Vector (Vector Word 256) 4 := Vector.replicate 4 (Vector.replicate 256 0)

/-- The parameters of State.reset: the open ones left open, the others at the defaults the spec documents (R8, R9). Log 9. -/
def atReset : Config := ⟨pInit, sDefault, kInit, .zextHigh⟩

/-- Free value: `mode` after the `n`-th draw, on a step with rst asserted (R43 "unspecified"). DESIGN CHOICE, safe: log 5. -/
opaque freeModeBit : Nat → Bool

/-- Free value: `rspStatus` after a step with rst asserted (R43 "unspecified"). DESIGN CHOICE, safe: log 5. -/
opaque freeStatusBits : Nat → BitVec 2

/-- Free value: `rspData` after a step with rst asserted (R43 "unspecified"). DESIGN CHOICE, safe: log 5. -/
opaque freeRspData : Nat → Block

/-- Free value: `rspLen` after a step with rst asserted, one of the values 0..8 it can hold (R31). DESIGN CHOICE, safe: log 5. -/
opaque freeRspLen : Nat → Fin 9

/-- Free value: `olen` after an output error (R205 "left without meaning"). DESIGN CHOICE, safe: log 6. -/
opaque freeOlen : Nat → Fin 9

/-- Free value: `oidx` after an output error, before R42's bound is applied. DESIGN CHOICE, safe: log 6. -/
opaque freeOidx : Nat → Fin 9

end Config
end Sys2Proof
end

