-- ==== Sys2Proof/Machine/Cipher.lean ====
section
/-! DEFINITION. The pure functions of the three sub-blocks (R17): F, Encrypt, Decrypt (R100 to R109), the codec functions (R130 to
R133), the per-chunk functions (R150, R165, R166), and what a completed run writes (R171). All total; none writes state (R100, R201). -/

namespace Sys2Proof.Machine

/-- A read of P-array entry i (R14, R21). -/
def pEntry (c : Config) (i : Fin 18) : Word := c.P[i]

/-- A read of S-box k at index j (R14, R22). -/
def sEntry (c : Config) (k : Fin 4) (j : Byte) : Word := (c.S[k])[j.toFin]

/-- The Round Function F (R101): addition, then exclusive OR, then addition, in that order. -/
def roundF (c : Config) (x : Word) : Word :=
  let byte0 := x.extractLsb' 24 8
  let byte1 := x.extractLsb' 16 8
  let byte2 := x.extractLsb' 8 8
  let byte3 := x.extractLsb' 0 8
  let temp := sEntry c 0 byte0
  let temp := temp + sEntry c 1 byte1
  let temp := temp ^^^ sEntry c 2 byte2
  let temp := temp + sEntry c 3 byte3
  temp

/-- The halves L and R, local to one application of a transform (R26). -/
structure Halves where
  l : Word
  r : Word
  deriving DecidableEq, Repr

/-- The swap `(L, R) <- (R, L)` (R12). -/
def Halves.swap (h : Halves) : Halves := ⟨h.r, h.l⟩

/-- One round with P-array entry i, its swap included (R105, R107); the mixing value is F applied twice (R104). -/
def feistelRound (c : Config) (h : Halves) (i : Fin 18) : Halves :=
  let l := h.l ^^^ pEntry c i
  let l1 := roundF c l
  let r := h.r ^^^ roundF c l1
  Halves.swap ⟨l, r⟩

/-- The loop of a transform over the entries `rounds`, the undoing of its last swap, and the whitening of L with entry `wl` and of R
with entry `wr` (R105, R107). -/
def transform (c : Config) (rounds : List (Fin 18)) (wl wr : Fin 18) (x : Block) : Block :=
  let h := (rounds.foldl (feistelRound c) ⟨hi32 x, lo32 x⟩).swap
  joinHalves (h.l ^^^ pEntry c wl) (h.r ^^^ pEntry c wr)

/-- The rounds of encryption: `i = 0, 1, ..., 15` (R105). -/
def encRounds : List (Fin 18) := [0, 1, 2, 3, 4, 5, 6, 7, 8, 9, 10, 11, 12, 13, 14, 15]

/-- The rounds of decryption: `i = 17, 16, ..., 2` (R107). -/
def decRounds : List (Fin 18) := [17, 16, 15, 14, 13, 12, 11, 10, 9, 8, 7, 6, 5, 4, 3, 2]

/-- `Encrypt` (R105); the whitening is `P[17]` into L and `P[16]` into R (R106). -/
def encrypt (c : Config) (x : Block) : Block := transform c encRounds 17 16 x

/-- `Decrypt` (R107); the whitening is `P[0]` into L and `P[1]` into R. -/
def decrypt (c : Config) (x : Block) : Block := transform c decRounds 0 1 x

/-- `Pack(b)` (R130): right-pad to 8 bytes, read big-endian; of the empty sequence 0 (R131). -/
def pack (b : List Byte) : Block := beVal (padTo8 b)

/-- `Unpack(x) = BE8(x)` (R132). -/
def unpack (x : Block) : List Byte := be8 x

/-- `Strip(x)` (R133): the first `8 - tz(x)` bytes of `BE8(x)`. -/
def strip (x : Block) : List Byte := (be8 x).take (8 - tz x)

/-- `CtValue(b)`: the ciphertext value of a chunk: of 8 bytes their big-endian value (R165), of fewer as SHORT_CT_MODE says (R166). -/
def ctValue (c : Config) (b : List Byte) : Block :=
  if b.length = 8 then beVal b
  else
    match c.shortCtMode with
    | .zextHigh => beVal b
    | .padLow => pack b

/-- `EncChunk(b)` (R150). -/
def encChunk (c : Config) (b : List Byte) : List Byte := unpack (encrypt c (pack b))

/-- `DecChunk(v)` (R150); stripping applies to every block (R151). -/
def decChunk (c : Config) (v : Block) : List Byte := strip (decrypt c v)

/-- The chunks of a stream: 8 bytes each, the last one perhaps shorter, none empty (R58, R171). -/
def chunksOf : List Byte → List (List Byte)
  | b0 :: b1 :: b2 :: b3 :: b4 :: b5 :: b6 :: b7 :: rest => [b0, b1, b2, b3, b4, b5, b6, b7] :: chunksOf rest
  | [] => []
  | short => [short]

/-- The output of a completed ECBE run over the bytes m (R171). -/
def ecbeOutput (c : Config) (m : List Byte) : List Byte := (chunksOf m).flatMap (encChunk c)

/-- The output of a completed ECBD run over the bytes m (R171). -/
def ecbdOutput (c : Config) (m : List Byte) : List Byte := (chunksOf m).flatMap fun b => decChunk c (ctValue c b)

end Sys2Proof.Machine
end

