-- ==== Sys2Proof/Machine/State.lean ====
section
/-! DEFINITION. The state of one instance: the record of 10_state.md section 1 field by field (R20), the parameters it carries
(R10), and the environment's side of the five ports (R35). Plain data throughout. -/

namespace Sys2Proof.Machine

/-- The control phase (R32). -/
inductive Phase where
  | idle
  | resp
  | run
  | emit
  deriving DecidableEq, Repr

/-- The mode bit of a run (R29): encrypt or decrypt. -/
inductive Mode where
  | E
  | D
  deriving DecidableEq, Repr

/-- The mode a bit stands for; only free values use it (log 5). -/
def Mode.ofBit : Bool → Mode
  | false => .E
  | true => .D

/-- The status codes of the response register (R31, R200): 0 OK, 1 ADVISORY, 2 IN_ERR, 3 OUT_ERR. -/
inductive Status where
  | ok
  | advisory
  | inErr
  | outErr
  deriving DecidableEq, Repr

/-- The two bits of a status code (R31). -/
def Status.code : Status → BitVec 2
  | .ok => 0
  | .advisory => 1
  | .inErr => 2
  | .outErr => 3

/-- The status of two bits (R31). -/
def Status.ofCode (c : BitVec 2) : Status :=
  match c.toNat with
  | 0 => .ok
  | 1 => .advisory
  | 2 => .inErr
  | _ => .outErr

/-- A token of the input stream (R37). -/
inductive Token where
  | byte (b : Byte)
  | eos
  | err
  deriving DecidableEq, Repr

/-- The sink's answer to an offered byte (R38). -/
inductive Answer where
  | ok
  | err
  deriving DecidableEq, Repr

/-- What a response carries to the host (R31, R60). -/
structure Response where
  status : Status
  data : Block
  len : BitVec 4
  deriving DecidableEq, Repr

/-- The environment's side of the five ports (R35, R246): what it offers from here on, oldest first, and the record of what it was
given. An empty list is a port on which nothing is offered now. None of it is state of the block. DESIGN CHOICE: log 1, 3, 14. -/
structure Env where
  /-- Command port: the head is on offer and held until the block accepts it (R36). -/
  cmds : List Command
  /-- Response port: how many responses the host is ready to consume (R36). -/
  takes : Nat
  /-- Input stream: the tokens the source still holds (R37). -/
  input : List Token
  /-- Output stream: the sink's answers to the bytes it will be offered (R38). -/
  answers : List Answer
  /-- Reset port: the level of `rst` at each coming step; not asserted past its end (R230). -/
  rst : List Bool
  /-- The bytes answered `Ok`, oldest first; never undone (R38). -/
  output : List Byte
  /-- The responses consumed, oldest first (R36, R65). -/
  responses : List Response
  deriving DecidableEq, Repr

/-- The state of one instance (R20). Entries of `buf` and `obuf` are the spec's own `Option`: a byte, or no value (R27, R28,
R43; log 7). -/
structure State where
  /-- R32. -/
  phase : Phase
  /-- R29, meaningful in RUN and EMIT. -/
  mode : Mode
  /-- R27, the chunk buffer. -/
  buf : Vector (Option Byte) 8
  /-- R27, the bytes held in `buf`. -/
  cnt : Fin 9
  /-- R28, the output block buffer. -/
  obuf : Vector (Option Byte) 8
  /-- R28, the bytes of `obuf` to emit. -/
  olen : Fin 9
  /-- R28, the bytes of `obuf` already emitted. -/
  oidx : Fin 9
  /-- R30, the block in `obuf` is the last of the run. -/
  final : Bool
  /-- R31. -/
  rspStatus : Status
  /-- R31. -/
  rspData : Block
  /-- R31, 4 bits, of which only 0..8 occur. -/
  rspLen : BitVec 4
  /-- R6 to R10: the constants of the instance; no step writes them. -/
  cfg : Config
  /-- R35: the ports' environment side. -/
  env : Env
  /-- The model's own: how many free values have been drawn (log 17). -/
  drawn : Nat
  deriving DecidableEq, Repr

/-- Why a step stops. The spec gives the block no fault (R201, R203); each of these is raised only in states that R42 says no
run reaches, and a statement says so. -/
inductive Fault where
  /-- Raised by processBlock: an entry of `buf` below the chunk's length holds no value (I7). Safe. -/
  | bufNoValue
  /-- Raised by stepEmit: the entry of `obuf` to be offered holds no value (I7). Safe. -/
  | obufNoValue
  /-- Raised by takeByte and takeEos: a token in RUN with `cnt = 8`, which R42 excludes (log 12). Safe. -/
  | chunkOverfull
  deriving DecidableEq, Repr

/-- What the model refuses. -/
inductive Refusal where
  /-- Raised by exec for a command that has no meaning yet (no arm does). Safe. -/
  | notModelled (mnemonic : String)
  /-- Raised by hostRead: the host reads the response register outside RESP (I6, R240). Safe. -/
  | responseNotValid
  deriving DecidableEq, Repr

/-- A buffer in which no entry holds a value (R43). -/
def noValue : Vector (Option Byte) 8 := Vector.replicate 8 none

/-- An environment that offers nothing and was given nothing. -/
def Env.quiet : Env := ⟨[], 0, [], [], [], [], []⟩

/-- The state right after reset of an instance with parameters c (R43): `mode` and the response register are given no value by the
spec; those here are the model's (DESIGN CHOICE, unsafe: log 4). -/
def State.resetWith (c : Config) : State :=
  { phase := .idle, mode := .E, buf := noValue, cnt := 0, obuf := noValue, olen := 0, oidx := 0, final := false,
    rspStatus := .ok, rspData := 0, rspLen := 0, cfg := c, env := Env.quiet, drawn := 0 }

/-- The machine right after reset (R43), with `P_INIT` and `K_INIT` open and the other parameters at their defaults (log 9). -/
def State.reset : State := State.resetWith Config.atReset

end Sys2Proof.Machine
end

