-- ==== Sys2Proof/Machine/Ops.lean ====
section
/-! DEFINITION. The shared operations over the state: the pseudocode primitives of R14, acceptance (R36), ending a run with an
error as ONE operation (R204, R205, R209) with the return beside it (R36, R210), and reset (R230). -/

namespace Sys2Proof.Machine

/-- `Respond(status, data, len)` (R33): the only writer of the response register apart from reset. -/
def respond (status : Status) (data : Block) (len : BitVec 4) (s : State) : State :=
  { s with rspStatus := status, rspData := data, rspLen := len, phase := .resp }

/-- A command's first step, performed when the command is accepted, which happens only in IDLE; in any other phase the command is
held and the block takes no step on it (R36; log 11). -/
def onAccept (effect : State → State) (s : State) : Host.Outcome State Fault Refusal :=
  .next (if s.phase = .idle then effect s else s)

/-- The commands still on offer once the head of the command port is accepted (R36). -/
def withCmds (cmds : List Command) (s : State) : State := { s with env := { s.env with cmds := cmds } }

/-- The responses the host is still ready to consume (R36). -/
def withTakes (n : Nat) (s : State) : State := { s with env := { s.env with takes := n } }

/-- The tokens the source still holds (R37). -/
def withInput (tokens : List Token) (s : State) : State := { s with env := { s.env with input := tokens } }

/-- The answers the sink will still give (R38). -/
def withAnswers (answers : List Answer) (s : State) : State := { s with env := { s.env with answers := answers } }

/-- Byte b is written to the output stream, for good (R38). -/
def wrote (b : Byte) (s : State) : State := { s with env := { s.env with output := s.env.output ++ [b] } }

/-- `InRead() -> token` (R14, R37): the token taken, which the source never offers again, and the state after; none while the
source offers none. -/
def inRead (s : State) : Option (Token × State) :=
  match s.env.input with
  | [] => none
  | t :: rest => some (t, withInput rest s)

/-- `OutWrite(b) -> ack` (R14, R38): the sink's answer and the state after; a byte answered `Ok` is written, a byte answered `Err` is
not; none while the sink gives no answer. -/
def outWrite (b : Byte) (s : State) : Option (Answer × State) :=
  match s.env.answers with
  | [] => none
  | .ok :: rest => some (.ok, wrote b (withAnswers rest s))
  | .err :: rest => some (.err, withAnswers rest s)

/-- The bytes of a list of buffer entries; none if one of them holds no value (I7). -/
def valuesOf : List (Option Byte) → Option (List Byte)
  | [] => some []
  | none :: _ => none
  | some b :: rest => (valuesOf rest).map (b :: ·)

/-- Which port failed (R14). -/
inductive IoPort where
  | inp
  | out
  deriving DecidableEq, Repr

/-- `olen` after an output error, left without meaning (R205): a free value. Log 6. -/
def olenAfterError (s : State) : Fin 9 := Config.freeOlen s.drawn

/-- `oidx` after an output error, left without meaning (R205): a free value of 0..olen, R42's bound (DEDUCED: log 6). -/
def oidxAfterError (s : State) : Fin 9 := min (Config.freeOidx s.drawn) (olenAfterError s)

/-- `raise IoError(port)` (R14): end the current run. It saves no state and transfers control nowhere; it loads the response
register and enters RESP (R209). IN discards the partial chunk (R204); OUT leaves `oidx`, `olen` and `obuf` without meaning (R205). -/
def raiseIoError (port : IoPort) (s : State) : State :=
  match port with
  | .inp => respond .inErr 0 0 { s with cnt := 0, buf := noValue }
  | .out =>
    respond .outErr 0 0
      { s with obuf := noValue, olen := olenAfterError s, oidx := oidxAfterError s, drawn := s.drawn + 1 }

/-- The host consumes the response: `phase <- IDLE` and nothing else of the block (R36). It is the return from an error too (R210). -/
def consumeResponse (s : State) : State :=
  { s with
    phase := .idle
    env := { s.env with responses := s.env.responses ++ [⟨s.rspStatus, s.rspData, s.rspLen⟩] } }

/-- A step with `rst` asserted (R230, R43): every state item at its reset value, whatever the phase; `mode` and the response
register, which R43 leaves unspecified, take free values (log 5); the parameters and the environment's side stay (R231, R233). -/
def resetBlock (s : State) : State :=
  { s with
    phase := .idle
    mode := Mode.ofBit (Config.freeModeBit s.drawn)
    buf := noValue
    cnt := 0
    obuf := noValue
    olen := 0
    oidx := 0
    final := false
    rspStatus := Status.ofCode (Config.freeStatusBits s.drawn)
    rspData := Config.freeRspData s.drawn
    rspLen := BitVec.ofNat 4 (Config.freeRspLen s.drawn).val
    drawn := s.drawn + 1 }

/-- Whether `rst` is asserted at this step (R230). -/
def rstAsserted (s : State) : Bool :=
  match s.env.rst with
  | [] => false
  | level :: _ => level

/-- The reset port's schedule moved past this step. -/
def passRst (s : State) : State := { s with env := { s.env with rst := s.env.rst.tail } }

end Sys2Proof.Machine
end

