-- ==== Sys2Proof/Machine/Codec.lean ====
section
/-! DEFINITION. The meanings of the block codec's commands PACK, UNPACK and USTRIP (41_block_codec.md). -/

namespace Sys2Proof.Machine

/-- PACK (R136): `Respond(OK, Pack(b[0..n-1]), 8)`. -/
def execPack (b : List Byte) (s : State) : Host.Outcome State Fault Refusal :=
  onAccept (respond .ok (pack b) 8) s

/-- UNPACK (R137): `Respond(OK, DATA, 8)`; the response's byte sequence is `Unpack(DATA)`. -/
def execUnpack (x : Block) (s : State) : Host.Outcome State Fault Refusal :=
  onAccept (respond .ok x 8) s

/-- USTRIP (R138): `Respond(OK, DATA, 8 - tz(DATA))`; the response's valid bytes are `Strip(DATA)`. -/
def execUstrip (x : Block) (s : State) : Host.Outcome State Fault Refusal :=
  onAccept (respond .ok x (BitVec.ofNat 4 (keptLen x).val)) s

end Sys2Proof.Machine
end

