-- ==== Sys2Proof/Machine/Ecb.lean ====
section
/-! DEFINITION. The meanings of the ECB block processor's commands: the per-chunk ECHUNK and DCHUNK, and the first step of the runs
ECBE and ECBD (42_ecb_processor.md sections 1 and 2); the later steps of a run are in Machine/Run.lean. -/

namespace Sys2Proof.Machine

/-- ECHUNK (R152): `Respond(OK, Encrypt(Pack(b[0..n-1])), 8)`. -/
def execEchunk (b : List Byte) (s : State) : Host.Outcome State Fault Refusal :=
  onAccept (fun s => respond .ok (encrypt s.cfg (pack b)) 8 s) s

/-- DCHUNK (R153): `y = Decrypt(DATA); Respond(OK, y, 8 - tz(y))`. -/
def execDchunk (v : Block) (s : State) : Host.Outcome State Fault Refusal :=
  onAccept (fun s => respond .ok (decrypt s.cfg v) (BitVec.ofNat 4 (keptLen (decrypt s.cfg v)).val) s) s

/-- Run start in mode m (R155, R156, R157): nothing left by an earlier run is read; `buf` and `obuf` are left without value. -/
def startRun (m : Mode) (s : State) : State :=
  { s with
    mode := m
    cnt := 0
    olen := 0
    oidx := 0
    final := false
    buf := noValue
    obuf := noValue
    phase := .run }

/-- ECBE (R156): `mode <- E`, then run start; no response at this step. -/
def execEcbe (s : State) : Host.Outcome State Fault Refusal :=
  onAccept (startRun .E) s

/-- ECBD (R157): `mode <- D`, then run start; no response at this step. -/
def execEcbd (s : State) : Host.Outcome State Fault Refusal :=
  onAccept (startRun .D) s

end Sys2Proof.Machine
end

