-- ==== Sys2Proof/Machine/Engine.lean ====
section
/-! DEFINITION. The meanings of the engine's commands ENC, DEC and FRND (40_feistel_engine.md). -/

namespace Sys2Proof.Machine

/-- ENC (R111): `Respond(OK, Encrypt(DATA), 8)`. -/
def execEnc (x : Block) (s : State) : Host.Outcome State Fault Refusal :=
  onAccept (fun s => respond .ok (encrypt s.cfg x) 8 s) s

/-- DEC (R112): `Respond(OK, Decrypt(DATA), 8)`; it never strips. -/
def execDec (x : Block) (s : State) : Host.Outcome State Fault Refusal :=
  onAccept (fun s => respond .ok (decrypt s.cfg x) 8 s) s

/-- FRND (R113): `Respond(OK, zext_64(F(DATA[31:0])), 8)`; one application of F. -/
def execFrnd (w : Word) (s : State) : Host.Outcome State Fault Refusal :=
  onAccept (fun s => respond .ok (zext64 (roundF s.cfg w)) 8 s) s

end Sys2Proof.Machine
end

