-- ==== Sys2Proof/Machine/Dispatch.lean ====
section
/-! DEFINITION. One arm per command of the opcode map (R73): what accepting it does. -/

namespace Sys2Proof.Machine

def exec (i : Instr) (s : State) : Host.Outcome State Fault Refusal :=
  match i with
  -- feistel_cipher_engine
  | .enc x => Sys2Proof.Machine.execEnc x s
  | .dec x => Sys2Proof.Machine.execDec x s
  | .frnd w => Sys2Proof.Machine.execFrnd w s
  -- block_codec
  | .pack b => Sys2Proof.Machine.execPack b s
  | .unpack x => Sys2Proof.Machine.execUnpack x s
  | .ustrip x => Sys2Proof.Machine.execUstrip x s
  -- ecb_block_processor
  | .echunk b => Sys2Proof.Machine.execEchunk b s
  | .dchunk v => Sys2Proof.Machine.execDchunk v s
  | .ecbe => Sys2Proof.Machine.execEcbe s
  | .ecbd => Sys2Proof.Machine.execEcbd s

end Sys2Proof.Machine
end

