-- ==== Sys2Proof/Machine/Flags.lean ====
section
/-! DEFINITION. The block has no flag register (R40). Its only status flags are the four handshake signals, pure functions of the
state (R34), and what the host may read of the response register. -/

namespace Sys2Proof.Machine

/-- `cmd_ready` (R34). -/
def cmdReady (s : State) : Bool := decide (s.phase = .idle)

/-- `rsp_valid` (R34); it is also the completion level (R207). -/
def rspValid (s : State) : Bool := decide (s.phase = .resp)

/-- `in_ready` (R34). -/
def inReady (s : State) : Bool := decide (s.phase = .run)

/-- `out_valid` (R34). -/
def outValid (s : State) : Bool := decide (s.phase = .emit ∧ s.oidx < s.olen)

/-- The byte sequence a response carries: `BE8(rspData)[0 .. rspLen-1]` (R55). -/
def Response.bytes (r : Response) : List Byte := (be8 r.data).take r.len.toNat

/-- The response register as the host reads it: only while `rsp_valid`; a read in any other phase is refused (R31, R240, I6). -/
def hostRead (s : State) : Except Refusal Response :=
  if rspValid s then .ok ⟨s.rspStatus, s.rspData, s.rspLen⟩ else .error .responseNotValid

end Sys2Proof.Machine
end

