-- ==== Sys2Proof/Machine/Run.lean ====
section
/-! DEFINITION. The steps of a stream run after its start (42_ecb_processor.md section 2): a token taken in RUN, a byte offered in
EMIT. -/

namespace Sys2Proof.Machine

/-- `EndBlock()` (R168). -/
def endBlock (s : State) : State :=
  if s.final then respond .ok 0 0 s else { s with phase := .run }

/-- The block value of a chunk in the run's mode (R161): encrypted (R163), or decrypted (R165, R166). -/
def blockValue (s : State) (chunk : List Byte) : Block :=
  match s.mode with
  | .E => encrypt s.cfg (pack chunk)
  | .D => decrypt s.cfg (ctValue s.cfg chunk)

/-- How many bytes of the block value y are emitted (R161): all 8, or the stripped ones (R133, R151). -/
def emitLen (m : Mode) (y : Block) : Fin 9 :=
  match m with
  | .E => 8
  | .D => keptLen y

/-- `obuf <- BE8(y)` with `olen`, `oidx` and `cnt` (R161); the chunk buffer is free again, so by R27 its entries hold no value
(DEDUCED: log 8). -/
def loadBlock (y : Block) (s : State) : State :=
  { s with
    obuf := Vector.ofFn fun j : Fin 8 => some (byteOf y j.val)
    olen := emitLen s.mode y
    oidx := 0
    cnt := 0
    buf := noValue }

/-- What follows the loading of a block (R161): with nothing to emit the block has ended, else EMIT. -/
def afterLoad (s : State) : State :=
  if s.olen = 0 then endBlock s else { s with phase := .emit }

/-- `ProcessBlock(n)` (R161), part of the step that completed the chunk. A chunk byte that holds no value is a fault (I7). -/
def processBlock (n : Nat) (s : State) : Host.Outcome State Fault Refusal :=
  match valuesOf (s.buf.toList.take n) with
  | none => .fault .bufNoValue
  | some chunk => .next (afterLoad (loadBlock (blockValue s chunk) s))

/-- `buf[cnt] <- b; cnt <- cnt + 1` (R160), for `cnt < 8`. -/
def pushByte (b : Byte) (s : State) : State :=
  { s with buf := s.buf.setIfInBounds s.cnt.val (some b), cnt := Fin.ofNat 9 (s.cnt.val + 1) }

/-- Taking `Byte(b)` in RUN (R160). -/
def takeByte (b : Byte) (s : State) : Host.Outcome State Fault Refusal :=
  if s.cnt.val < 8 then
    let t := pushByte b s
    if t.cnt = 8 then processBlock 8 t else .next t
  else .fault .chunkOverfull

/-- `final <- 1` (R162). -/
def markFinal (s : State) : State := { s with final := true }

/-- Taking `Eos` in RUN: with a partial chunk R162, with none R164. -/
def takeEos (s : State) : Host.Outcome State Fault Refusal :=
  if s.cnt = 0 then .next (respond .ok 0 0 s)
  else if s.cnt.val < 8 then processBlock s.cnt.val (markFinal s)
  else .fault .chunkOverfull

/-- Taking one token in RUN (R158): `Err` aborts the run (R204). -/
def takeToken (t : Token) (s : State) : Host.Outcome State Fault Refusal :=
  match t with
  | .byte b => takeByte b s
  | .eos => takeEos s
  | .err => .next (raiseIoError .inp s)

/-- The step in RUN: one token; while the source offers none, a wait (R158, I10; log 2). -/
def stepRun (s : State) : Host.Outcome State Fault Refusal :=
  match inRead s with
  | none => .next s
  | some (t, s') => takeToken t s'

/-- `oidx <- n` (R170). -/
def withOidx (n : Fin 9) (s : State) : State := { s with oidx := n }

/-- The sink answered `Ok` and `oidx` becomes n (R170): `if oidx = olen then EndBlock()`. -/
def emitOk (n : Fin 9) (s : State) : State :=
  let t := withOidx n s
  if t.oidx = t.olen then endBlock t else t

/-- The step in EMIT: offer `obuf[oidx]` and take the sink's answer (R169, R170, R205); while the sink gives none, a wait (R159,
I10; log 2). Without `out_valid` nothing is offered: R42 and R170 exclude that (log 12). -/
def stepEmit (s : State) : Host.Outcome State Fault Refusal :=
  if h : s.oidx.val < s.olen.val then
    match s.obuf[s.oidx.val] with
    | none => .fault .obufNoValue
    | some b =>
      match outWrite b s with
      | none => .next s
      | some (.ok, s') => .next (emitOk (Fin.ofNat 9 (s.oidx.val + 1)) s')
      | some (.err, s') => .next (raiseIoError .out s')
  else .next s

end Sys2Proof.Machine
end

