-- ==== Sys2Proof/Machine/Control.lean ====
section
/-! DEFINITION. The step of each control phase (R32): at most one kind of event is enabled in each (R208). -/

namespace Sys2Proof.Machine

/-- Accepting a transaction (R36): decode it and perform its first step; an `Unmatched` word answers `ADVISORY` and does nothing
else (R75, R202). -/
def acceptCommand (c : Command) (s : State) : Host.Outcome State Fault Refusal :=
  match decode c with
  | .ok i => exec i s
  | .error _ => onAccept (respond .advisory 0 0) s

/-- The step in IDLE: accept the command on offer; while the host offers none, a wait (R36, R234; log 2). -/
def stepIdle (s : State) : Host.Outcome State Fault Refusal :=
  match s.env.cmds with
  | [] => .next s
  | c :: rest => acceptCommand c (withCmds rest s)

/-- The step in RESP: the host consumes the response; until it does, a wait (R36, R207; log 2). -/
def stepResp (s : State) : Host.Outcome State Fault Refusal :=
  match s.env.takes with
  | 0 => .next s
  | n + 1 => .next (consumeResponse (withTakes n s))

/-- The step of the current phase (R32, R208). -/
def stepPhase (s : State) : Host.Outcome State Fault Refusal :=
  match s.phase with
  | .idle => stepIdle s
  | .resp => stepResp s
  | .run => stepRun s
  | .emit => stepEmit s

end Sys2Proof.Machine
end

