-- ==== Sys2Proof/Machine/Step.lean ====
section
/-! DEFINITION. One step of the block (R15), and how a command word is placed where the next step takes it. -/

namespace Sys2Proof.Machine

/-- One step: with rst asserted the reset, whatever else is offered (R208, R230); else the step of the current phase (R32). -/
def step (s : State) : Host.Outcome State Fault Refusal :=
  if rstAsserted s then .next (resetBlock (passRst s)) else stepPhase (passRst s)

/-- s with that command at the head of the command port, in IDLE, and rst not asserted at the next step, so that the very next step
accepts it (R36). It stands for the host offering the command (log 10). -/
def State.withFetchWord (s : State) (nbits w : Nat) : State :=
  { s with
    phase := .idle
    env := { s.env with cmds := tableCommand nbits w :: s.env.cmds, rst := false :: s.env.rst } }

end Sys2Proof.Machine
end

