-- ==== Sys2Proof/Machine/Assembler.lean ====
section
/-! DEFINITION. The assembler syntax and the pseudo-commands (R78, R79): a line, the transaction it stands for, and the reading of a
line's text. What R78 leaves open of the text (spaces, letter case, numbers out of range) is log 16. -/

namespace Sys2Proof.Machine

/-- A line of assembly: the ten commands and `.cmd` (R78), and the pseudo-commands (R79). -/
inductive AsmLine where
  | enc (x : Block)
  | dec (x : Block)
  | frnd (x : Word)
  | pack (n : Nat) (x : Block)
  | unpack (x : Block)
  | ustrip (x : Block)
  | echunk (n : Nat) (x : Block)
  | dchunk (x : Block)
  | ecbe
  | ecbd
  | cmd (c : BitVec 8) (x : Block)
  | packb (b : List Byte)
  | echunkb (b : List Byte)
  | ecb (m : Mode)
  | advnop
  deriving DecidableEq, Repr

/-- What a line encodes as (R78, R79); none for an `<n>` above 8 or a byte list that is empty or longer than 8. -/
def AsmLine.assemble : AsmLine → Option Command
  | .enc x => some ⟨0x10, x⟩
  | .dec x => some ⟨0x20, x⟩
  | .frnd x => some ⟨0x30, zext64 x⟩
  | .pack n x => if n ≤ 8 then some ⟨0x40 + BitVec.ofNat 8 n, x⟩ else none
  | .unpack x => some ⟨0x50, x⟩
  | .ustrip x => some ⟨0x60, x⟩
  | .echunk n x => if n ≤ 8 then some ⟨0x70 + BitVec.ofNat 8 n, x⟩ else none
  | .dchunk x => some ⟨0x80, x⟩
  | .ecbe => some ⟨0x90, 0⟩
  | .ecbd => some ⟨0xA0, 0⟩
  | .cmd c x => some ⟨c, x⟩
  | .packb b =>
    if 1 ≤ b.length ∧ b.length ≤ 8 then some ⟨0x40 + BitVec.ofNat 8 b.length, dataOfBytes b⟩ else none
  | .echunkb b =>
    if 1 ≤ b.length ∧ b.length ≤ 8 then some ⟨0x70 + BitVec.ofNat 8 b.length, dataOfBytes b⟩ else none
  | .ecb .E => some ⟨0x90, 0⟩
  | .ecb .D => some ⟨0xA0, 0⟩
  | .advnop => some ⟨0x00, 0⟩

/-- The characters that separate words (log 16). -/
def isBlank (c : Char) : Bool := c == ' ' || c == '\t'

/-- The text without blanks at either end (log 16). -/
def trim (cs : List Char) : List Char := ((cs.dropWhile isBlank).reverse.dropWhile isBlank).reverse

/-- The operands of a line, separated by commas (R78). -/
def splitCommas : List Char → List (List Char)
  | [] => [[]]
  | c :: cs =>
    if c = ',' then [] :: splitCommas cs
    else
      match splitCommas cs with
      | [] => [[c]]
      | w :: ws => (c :: w) :: ws

/-- The value of a digit, in either letter case (log 16). -/
def digitValue (c : Char) : Option Nat :=
  let n := c.toNat
  if 48 ≤ n ∧ n ≤ 57 then some (n - 48)
  else if 97 ≤ n ∧ n ≤ 102 then some (n - 87)
  else if 65 ≤ n ∧ n ≤ 70 then some (n - 55)
  else none

/-- The number that digits write in a base, from the value read so far; none at a character that is no digit of the base. -/
def readDigits (base : Nat) : Nat → List Char → Option Nat
  | v, [] => some v
  | v, c :: cs =>
    match digitValue c with
    | none => none
    | some d => if d < base then readDigits base (v * base + d) cs else none

/-- A number: hexadecimal with a `0x` prefix, or decimal (R78). -/
def readNumber (cs : List Char) : Option Nat :=
  match cs with
  | [] => none
  | ['0', 'x'] => none
  | '0' :: 'x' :: ds => readDigits 16 0 ds
  | ds => readDigits 10 0 ds

/-- A number of w bits; one that does not fit is refused (log 16). -/
def readBits (w : Nat) (cs : List Char) : Option (BitVec w) :=
  match readNumber cs with
  | none => none
  | some n => if n < 2 ^ w then some (BitVec.ofNat w n) else none

/-- A list of byte operands. -/
def readBytes : List (List Char) → Option (List Byte)
  | [] => some []
  | w :: ws =>
    match readBits 8 w, readBytes ws with
    | some b, some bs => some (b :: bs)
    | _, _ => none

/-- The line of a mnemonic and its operands (R78, R79); none where they fit no row. -/
def readOperands (mnemonic : List Char) (ops : List (List Char)) : Option AsmLine :=
  match mnemonic, ops with
  | ['E', 'N', 'C'], [x] => (readBits 64 x).map .enc
  | ['D', 'E', 'C'], [x] => (readBits 64 x).map .dec
  | ['F', 'R', 'N', 'D'], [x] => (readBits 32 x).map .frnd
  | ['P', 'A', 'C', 'K'], [n, x] =>
    match readNumber n, readBits 64 x with
    | some n, some x => some (.pack n x)
    | _, _ => none
  | ['U', 'N', 'P', 'A', 'C', 'K'], [x] => (readBits 64 x).map .unpack
  | ['U', 'S', 'T', 'R', 'I', 'P'], [x] => (readBits 64 x).map .ustrip
  | ['E', 'C', 'H', 'U', 'N', 'K'], [n, x] =>
    match readNumber n, readBits 64 x with
    | some n, some x => some (.echunk n x)
    | _, _ => none
  | ['D', 'C', 'H', 'U', 'N', 'K'], [x] => (readBits 64 x).map .dchunk
  | ['E', 'C', 'B', 'E'], [] => some .ecbe
  | ['E', 'C', 'B', 'D'], [] => some .ecbd
  | ['.', 'c', 'm', 'd'], [c, x] =>
    match readBits 8 c, readBits 64 x with
    | some c, some x => some (.cmd c x)
    | _, _ => none
  | ['P', 'A', 'C', 'K', 'B'], bs => (readBytes bs).map .packb
  | ['E', 'C', 'H', 'U', 'N', 'K', 'B'], bs => (readBytes bs).map .echunkb
  | ['E', 'C', 'B'], [['e']] => some (.ecb .E)
  | ['E', 'C', 'B'], [['d']] => some (.ecb .D)
  | ['A', 'D', 'V', 'N', 'O', 'P'], [] => some .advnop
  | _, _ => none

/-- What the text of one line says. -/
inductive AsmText where
  /-- Nothing but blanks and a comment. -/
  | empty
  /-- A line of R78 or R79. -/
  | line (l : AsmLine)
  /-- No line of R78 or R79. -/
  | malformed
  deriving DecidableEq, Repr

/-- The reading of one line (R78): a `;` starts a comment; the mnemonic, then its operands separated by commas. -/
def readLine (text : List Char) : AsmText :=
  let body := trim (text.takeWhile (· != ';'))
  match body with
  | [] => .empty
  | _ =>
    let rest := trim (body.dropWhile fun c => !isBlank c)
    let ops := if rest.isEmpty then [] else (splitCommas rest).map trim
    match readOperands (body.takeWhile fun c => !isBlank c) ops with
    | some l => .line l
    | none => .malformed

end Sys2Proof.Machine
end

