-- ==== Sys2Proof/Machine/Ports.lean ====
section
/-! DEFINITION. What the environment may do at the ports (R35, R246): each operation adds to what a port offers, behind what it
offers already, and touches nothing else. They are moves of the environment, not steps of the block (log 1). -/

namespace Sys2Proof.Machine

/-- The host offers one more command, to be taken after those it offers already (R246). -/
def offerCommand (c : Command) (s : State) : State :=
  { s with env := { s.env with cmds := s.env.cmds ++ [c] } }

/-- The host is ready to consume one more response (R246). -/
def offerTake (s : State) : State :=
  { s with env := { s.env with takes := s.env.takes + 1 } }

/-- The source offers one more token (R37, R246). -/
def offerToken (t : Token) (s : State) : State :=
  { s with env := { s.env with input := s.env.input ++ [t] } }

/-- The sink gives one more answer (R38, R246). -/
def offerAnswer (a : Answer) (s : State) : State :=
  { s with env := { s.env with answers := s.env.answers ++ [a] } }

/-- The host resynchronises the source: the tokens it still holds are dropped and a new stream begins (R243). -/
def resyncInput (stream : List Token) (s : State) : State :=
  { s with env := { s.env with input := stream } }

/-- The environment drives the level of `rst` for one more step (R230, R246). -/
def driveRst (level : Bool) (s : State) : State :=
  { s with env := { s.env with rst := s.env.rst ++ [level] } }

end Sys2Proof.Machine
end

