-- ==== Sys2Proof/Safety.lean ====
section
/-! DEFINITION. What counts as a safe run: the invariants of R42, with what the rules of a run add to make them inductive, and the
values R43 gives for reset. -/

namespace Sys2Proof.Machine

/-- The invariants of R42, and after them those that R27, R161, R168 and R170 add. -/
structure State.Inv (s : State) : Prop where
  /-- R42: `cnt ≤ 7` whenever `phase = RUN` (`cnt ≤ 8` is its type). -/
  cnt_run : s.phase = .run → s.cnt.val ≤ 7
  /-- R42: `oidx ≤ olen` (`olen ≤ 8` is its type). -/
  oidx_le : s.oidx.val ≤ s.olen.val
  /-- R42: `olen = 8` whenever `phase = EMIT` and `mode = E`. -/
  olen_enc : s.phase = .emit → s.mode = .E → s.olen.val = 8
  /-- R42: in EMIT, `obuf[0 .. olen-1]` all hold values. -/
  obuf_emit : s.phase = .emit → ∀ j : Fin 8, j.val < s.olen.val → (s.obuf[j]).isSome = true
  /-- R42: `rspLen ≤ 8`. -/
  rspLen_le : s.rspLen.toNat ≤ 8
  /-- R27: an entry of `buf` holds a value exactly below `cnt`. -/
  buf_cnt : ∀ j : Fin 8, (s.buf[j]).isSome = true ↔ j.val < s.cnt.val
  /-- R170: in EMIT a byte is left to offer. -/
  oidx_emit : s.phase = .emit → s.oidx.val < s.olen.val
  /-- R161: in EMIT the chunk buffer is free. -/
  cnt_emit : s.phase = .emit → s.cnt.val = 0
  /-- R168: a run that reads on has not processed its final chunk. -/
  final_run : s.phase = .run → s.final = false

/-- The values R43 gives for the block's items after reset, and the handshake signals; it gives none for `mode` and the response
register. -/
structure State.ResetValues (s : State) : Prop where
  phase : s.phase = .idle
  buf : s.buf = noValue
  cnt : s.cnt = 0
  obuf : s.obuf = noValue
  olen : s.olen = 0
  oidx : s.oidx = 0
  final : s.final = false
  cmdReady : cmdReady s = true
  rspValid : rspValid s = false
  inReady : inReady s = false
  outValid : outValid s = false

end Sys2Proof.Machine
end

