-- ==== Sys2Proof/WellFormed.lean ====
section
/-! DEFINITION. Which commands have an encoding: PACK and ECHUNK carry at most 8 bytes (LEN is 0..8, R71, R74); every other
operand is admitted at every value of its type. -/

namespace Sys2Proof

/-- The command has an encoding (R71, R74). -/
def Instr.wellFormed : Instr → Bool
  | .enc _ => true
  | .dec _ => true
  | .frnd _ => true
  | .pack b => decide (b.length ≤ 8)
  | .unpack _ => true
  | .ustrip _ => true
  | .echunk b => decide (b.length ≤ 8)
  | .dchunk _ => true
  | .ecbe => true
  | .ecbd => true

end Sys2Proof
end

