-- ==== Sys2Proof/Certificates/Slice0/Obligations.lean ====
section
/-! DEFINITION. The statements for the provers, and the few words they are written with (namespace `Sys2Proof.Claim`). -/

namespace Sys2Proof.Claim
open Sys2Proof.Machine

/-- `CFG_B` of 95_test_vectors.md section 1: `P[i] = 1 << i`, S-boxes all zero. -/
def cfgB : Config :=
  ⟨Vector.ofFn fun i : Fin 18 => 1#32 <<< i.val, Config.sDefault, Vector.replicate 14 0, .zextHigh⟩

/-- `CFG_S` of 95_test_vectors.md section 1: `P` as CFG_B, `S[k][b] = 0x01000193 * (256*k + b + 1) mod 2^32`. -/
def cfgS : Config :=
  ⟨Vector.ofFn fun i : Fin 18 => 1#32 <<< i.val,
    Vector.ofFn fun k : Fin 4 => Vector.ofFn fun b : Fin 256 => BitVec.ofNat 32 (0x01000193 * (256 * k.val + b.val + 1)),
    Vector.replicate 14 0, .zextHigh⟩

/-- Every S-box entry is zero, the documented default (R8, R103). -/
def ZeroSBoxes (c : Config) : Prop := ∀ (k : Fin 4) (j : Byte), sEntry c k j = 0

/-- c with the P-array reversed: `Q[i] = P[17-i]` (R109). -/
def reversedP (c : Config) : Config :=
  { c with P := Vector.ofFn fun i : Fin 18 => pEntry c ⟨17 - i.val, by omega⟩ }

/-- The exclusive OR of the P-array entries listed. -/
def xorP (c : Config) (is : List (Fin 18)) : Word := is.foldl (fun w i => w ^^^ pEntry c i) 0

/-- A step's outcome with its next state changed by f. -/
def onNext (f : State → State) : Host.Outcome State Fault Refusal → Host.Outcome State Fault Refusal
  | .next t => .next (f t)
  | .fault r => .fault r
  | .refused r => .refused r

/-- The block is IDLE, rst is not asserted, and the host offers c, then `rest`. -/
def Offers (s : State) (c : Command) (rest : List Command) : Prop :=
  s.phase = .idle ∧ rstAsserted s = false ∧ s.env.cmds = c :: rest

/-- The block is in RUN, rst is not asserted, and the source offers `tok`, then `rest`. -/
def Feeds (s : State) (tok : Token) (rest : List Token) : Prop :=
  s.phase = .run ∧ rstAsserted s = false ∧ s.env.input = tok :: rest

/-- The block is in EMIT with a byte b on offer, rst is not asserted, and the sink answers a, then `rest`. -/
def Emits (s : State) (b : Byte) (a : Answer) (rest : List Answer) : Prop :=
  s.phase = .emit ∧ rstAsserted s = false ∧ s.oidx.val < s.olen.val ∧ s.obuf[s.oidx.val]? = some (some b) ∧
    s.env.answers = a :: rest

/-- The bits of DATA that R72 does not list as ignored for the word w; the other bits are zero. -/
def keptBits (w : BitVec 8) (data : Block) : Block :=
  if opField w = 0x3 then data &&& 0xFFFFFFFF
  else if opField w = 0x4 ∨ opField w = 0x7 then data &&& (BitVec.allOnes 64 <<< (64 - 8 * (lenField w).toNat))
  else if opField w = 0x9 ∨ opField w = 0xA then 0
  else data

/-- The 26 command words of the opcode map (R73). -/
def matchedWords : List (BitVec 8) :=
  [0x10, 0x20, 0x30, 0x50, 0x60, 0x80, 0x90, 0xA0] ++ (List.range 9).map (fun n => 0x40 + BitVec.ofNat 8 n) ++
    (List.range 9).map (fun n => 0x70 + BitVec.ofNat 8 n)

/-- A block command: every command but ECBE and ECBD (R61). -/
def isBlockCommand : Instr → Bool
  | .ecbe => false
  | .ecbd => false
  | _ => true

/-- The state after a chunk's block value y has been loaded with n of its bytes to emit, before it is known what follows (R161). -/
def loaded (s : State) (y : Block) (n : Fin 9) (fin : Bool) (rest : List Token) : State :=
  { s with
    obuf := Vector.ofFn fun j : Fin 8 => some (byteOf y j.val)
    olen := n
    oidx := 0
    cnt := 0
    buf := noValue
    final := fin
    env := { s.env with input := rest, rst := s.env.rst.tail } }

/-- What follows (R161, R168): EMIT, or with no byte to emit RUN, or with none and the chunk final the response `OK, 0, 0`. -/
def followed (t : State) : State :=
  if t.olen.val ≠ 0 then { t with phase := .emit }
  else if t.final then { t with rspStatus := .ok, rspData := 0, rspLen := 0, phase := .resp }
  else { t with phase := .run }

/-- The transitions of R32's table, with the reset and the wait; each row names its event. -/
inductive Tabled (s t : State) : Prop where
  | reset (h : rstAsserted s = true) (ht : t.phase = .idle)
  | wait (ht : t = { s with env := { s.env with rst := s.env.rst.tail } })
  | blockCommand (h : s.phase = .idle) (c : Command) (rest : List Command) (hc : s.env.cmds = c :: rest)
      (hi : decode c ≠ .ok .ecbe ∧ decode c ≠ .ok .ecbd) (ht : t.phase = .resp)
  | runCommand (h : s.phase = .idle) (c : Command) (rest : List Command) (hc : s.env.cmds = c :: rest)
      (hi : decode c = .ok .ecbe ∨ decode c = .ok .ecbd) (ht : t.phase = .run)
  | consume (h : s.phase = .resp) (hn : 0 < s.env.takes) (ht : t.phase = .idle)
  | byteOfChunk (h : s.phase = .run) (b : Byte) (hi : s.env.input.head? = some (.byte b)) (hc : s.cnt.val < 7)
      (ht : t.phase = .run)
  | lastByteOfChunk (h : s.phase = .run) (b : Byte) (hi : s.env.input.head? = some (.byte b)) (hc : s.cnt.val = 7)
      (ht : (t.olen ≠ 0 ∧ t.phase = .emit) ∨ (t.olen = 0 ∧ s.mode = .D ∧ t.phase = .run))
  | eosAlone (h : s.phase = .run) (hi : s.env.input.head? = some .eos) (hc : s.cnt = 0)
      (ht : t.phase = .resp ∧ t.rspStatus = .ok)
  | eosInChunk (h : s.phase = .run) (hi : s.env.input.head? = some .eos) (hc : 1 ≤ s.cnt.val ∧ s.cnt.val ≤ 7)
      (ht : t.final = true ∧ ((t.olen ≠ 0 ∧ t.phase = .emit) ∨
        (t.olen = 0 ∧ s.mode = .D ∧ t.phase = .resp ∧ t.rspStatus = .ok)))
  | inputError (h : s.phase = .run) (hi : s.env.input.head? = some .err) (ht : t.phase = .resp ∧ t.rspStatus = .inErr)
  | lastByteWritten (h : s.phase = .emit) (ha : s.env.answers.head? = some .ok) (hl : s.oidx.val + 1 = s.olen.val)
      (ht : (s.final = false ∧ t.phase = .run) ∨ (s.final = true ∧ t.phase = .resp ∧ t.rspStatus = .ok))
  | byteWritten (h : s.phase = .emit) (ha : s.env.answers.head? = some .ok) (hl : s.oidx.val + 1 ≠ s.olen.val)
      (ht : t.phase = .emit)
  | outputError (h : s.phase = .emit) (ha : s.env.answers.head? = some .err)
      (ht : t.phase = .resp ∧ t.rspStatus = .outErr)

/-- The output of a completed run in mode m (R171). -/
def runOutput (m : Mode) (c : Config) (bytes : List Byte) : List Byte :=
  match m with
  | .E => ecbeOutput c bytes
  | .D => ecbdOutput c bytes

/-- The command word that starts a run in mode m (R156, R157). -/
def runWord : Mode → BitVec 8
  | .E => 0x90
  | .D => 0xA0

end Sys2Proof.Claim

open Sys2Proof Sys2Proof.Machine Sys2Proof.Claim

/-! ## Encoding -/

/-- Words written out from R71 and R73 decode to the commands they stand for, with the operands of R72. -/
def Obligations.SampleWordsDecodeAsTabled : Prop :=
  decode ⟨0b00010000, 0x0123456789ABCDEF⟩ = .ok (.enc 0x0123456789ABCDEF) ∧
  decode ⟨0b00110000, 0xFFFFFFFF01020304⟩ = .ok (.frnd 0x01020304) ∧
  decode ⟨0b01000011, 0x414243FFFFFFFFFF⟩ = .ok (.pack [0x41, 0x42, 0x43]) ∧
  decode ⟨0b01111000, 0x4142434445464748⟩ = .ok (.echunk [0x41, 0x42, 0x43, 0x44, 0x45, 0x46, 0x47, 0x48]) ∧
  decode ⟨0b10100000, 0x0000000000000000⟩ = .ok .ecbd

/-- Decoding the encoding of a well-formed command gives it back. -/
def Obligations.DecodeOfEncodeIsIdentity : Prop :=
  ∀ i : Instr, i.wellFormed = true → decode (encode i) = .ok i

/-- Encoding what was decoded gives the word back and DATA with its ignored bits cleared (R72; that encode writes them as zero is the
model's choice, log 13). -/
def Obligations.EncodeOfDecodeKeepsUsedBits : Prop :=
  ∀ (c : Command) (i : Instr), decode c = .ok i → i.wellFormed = true ∧ encode i = ⟨c.cmd, keptBits c.cmd c.data⟩

/-- Exactly the 26 words of the opcode map decode, whatever DATA is; the other 230 do not (R74). -/
def Obligations.ExactlyTheTabledWordsDecode : Prop :=
  (∀ (w : BitVec 8) (d : Block), (∃ i, decode ⟨w, d⟩ = .ok i) ↔ w ∈ matchedWords) ∧
  matchedWords.Nodup ∧ matchedWords.length = 26

/-- The three kinds of unmatched word (R76). -/
def Obligations.ReservedWordsAreUnmatchedByName : Prop :=
  ∀ (w : BitVec 8) (d : Block),
    (opField w = 0 ∨ 0xB ≤ (opField w).toNat → decode ⟨w, d⟩ = .error .reservedOp) ∧
    ((opField w = 0x4 ∨ opField w = 0x7) → 9 ≤ (lenField w).toNat → decode ⟨w, d⟩ = .error .lenAboveEight) ∧
    (opField w ≠ 0 → (opField w).toNat < 0xB → opField w ≠ 0x4 → opField w ≠ 0x7 → lenField w ≠ 0 →
      decode ⟨w, d⟩ = .error .lenNotZero)

/-! ## The ten commands -/

/-- ENC (R111). -/
def Obligations.EncAnswersTheEncryptedBlock : Prop :=
  (∀ (s : State) (x : Block), s.phase = .idle →
    decode ⟨0x10, x⟩ = .ok (.enc x) ∧
    exec (.enc x) s = .next { s with rspStatus := .ok, rspData := encrypt s.cfg x, rspLen := 8, phase := .resp }) ∧
  (∀ (c : Config) (l r : Word), ZeroSBoxes c → c.P = Vector.replicate 18 0 →
    encrypt c (joinHalves l r) = joinHalves r l) ∧
  encrypt cfgB 0 ≠ 0 ∧
  encrypt cfgB 0x0123456789ABCDEF = 0x89A9674501221032

/-- DEC (R112): the length answered is 8 whatever the block, for DEC does not strip. -/
def Obligations.DecAnswersTheDecryptedBlock : Prop :=
  (∀ (s : State) (x : Block), s.phase = .idle →
    decode ⟨0x20, x⟩ = .ok (.dec x) ∧
    exec (.dec x) s = .next { s with rspStatus := .ok, rspData := decrypt s.cfg x, rspLen := 8, phase := .resp }) ∧
  decrypt cfgB 0x89A9674501221032 = 0x0123456789ABCDEF

/-- FRND (R113): one application of F, the high word of DATA ignored, the high word of the answer 0. -/
def Obligations.FrndAnswersOneRoundFunction : Prop :=
  (∀ (s : State) (d : Block), s.phase = .idle →
    decode ⟨0x30, d⟩ = .ok (.frnd (lo32 d)) ∧
    exec (.frnd (lo32 d)) s =
      .next { s with rspStatus := .ok, rspData := joinHalves 0 (roundF s.cfg (lo32 d)), rspLen := 8, phase := .resp }) ∧
  (∀ (c : Config) (w : Word), ZeroSBoxes c → roundF c w = 0) ∧
  roundF cfgS 0 = 0x04076C48

/-- PACK (R136): bits `[63-8n : 0]` of DATA are cleared; n = 0 gives 0, n = 8 gives DATA; a LEN of 9 to 15 is unmatched. -/
def Obligations.PackAnswersThePaddedChunk : Prop :=
  (∀ (s : State) (n : Nat) (d : Block), s.phase = .idle → n ≤ 8 →
    decode ⟨0x40 + BitVec.ofNat 8 n, d⟩ = .ok (.pack (bytesOperand n d)) ∧
    exec (.pack (bytesOperand n d)) s =
      .next { s with
        rspStatus := .ok, rspData := d &&& (BitVec.allOnes 64 <<< (64 - 8 * n)), rspLen := 8, phase := .resp } ∧
    pack (bytesOperand n d) = d &&& (BitVec.allOnes 64 <<< (64 - 8 * n))) ∧
  (∀ (n : Nat) (d : Block), 9 ≤ n → n ≤ 15 → decode ⟨0x40 + BitVec.ofNat 8 n, d⟩ = .error .lenAboveEight) ∧
  (∀ d : Block, pack (bytesOperand 0 d) = 0 ∧ pack (bytesOperand 8 d) = d) ∧
  pack (bytesOperand 3 0x414243FFFFFFFFFF) = 0x4142430000000000

/-- UNPACK (R137): the bytes the response carries are all 8 of DATA. -/
def Obligations.UnpackAnswersAllEightBytes : Prop :=
  ∀ (s : State) (x : Block), s.phase = .idle →
    decode ⟨0x50, x⟩ = .ok (.unpack x) ∧
    exec (.unpack x) s = .next { s with rspStatus := .ok, rspData := x, rspLen := 8, phase := .resp } ∧
    Response.bytes ⟨.ok, x, 8⟩ = unpack x

/-- USTRIP (R138): the bytes the response carries are those of `Strip(DATA)`, and those past them are the stripped zero bytes. -/
def Obligations.UstripAnswersTheStrippedLength : Prop :=
  (∀ (s : State) (x : Block), s.phase = .idle →
    decode ⟨0x60, x⟩ = .ok (.ustrip x) ∧
    exec (.ustrip x) s =
      .next { s with rspStatus := .ok, rspData := x, rspLen := BitVec.ofNat 4 (8 - tz x), phase := .resp } ∧
    Response.bytes ⟨.ok, x, BitVec.ofNat 4 (8 - tz x)⟩ = strip x ∧
    (be8 x).drop (8 - tz x) = List.replicate (tz x) 0#8) ∧
  8 - tz 0 = 0 ∧ 8 - tz 0xFFFFFFFFFFFFFF00 = 7 ∧ 8 - tz 1 = 8 ∧ 8 - tz 0x4142430000000000 = 3

/-- ECHUNK (R152): the response's 8 bytes are `EncChunk(b)`; n = 0 gives `Encrypt(0)`; a LEN of 9 to 15 is unmatched. -/
def Obligations.EchunkAnswersTheEncryptedChunk : Prop :=
  (∀ (s : State) (n : Nat) (d : Block), s.phase = .idle → n ≤ 8 →
    decode ⟨0x70 + BitVec.ofNat 8 n, d⟩ = .ok (.echunk (bytesOperand n d)) ∧
    exec (.echunk (bytesOperand n d)) s =
      .next { s with
        rspStatus := .ok, rspData := encrypt s.cfg (pack (bytesOperand n d)), rspLen := 8, phase := .resp } ∧
    Response.bytes ⟨.ok, encrypt s.cfg (pack (bytesOperand n d)), 8⟩ = encChunk s.cfg (bytesOperand n d)) ∧
  (∀ (n : Nat) (d : Block), 9 ≤ n → n ≤ 15 → decode ⟨0x70 + BitVec.ofNat 8 n, d⟩ = .error .lenAboveEight) ∧
  (∀ (c : Config) (d : Block), encrypt c (pack (bytesOperand 0 d)) = encrypt c 0) ∧
  encrypt cfgB (pack (bytesOperand 3 0x4142430000000000)) = 0x0002AAAA41431655

/-- DCHUNK (R153): the response's valid bytes are `DecChunk(v)`; a block that decrypts to 0 has none. -/
def Obligations.DchunkAnswersTheDecryptedChunk : Prop :=
  (∀ (s : State) (v : Block), s.phase = .idle →
    decode ⟨0x80, v⟩ = .ok (.dchunk v) ∧
    exec (.dchunk v) s =
      .next { s with
        rspStatus := .ok, rspData := decrypt s.cfg v, rspLen := BitVec.ofNat 4 (8 - tz (decrypt s.cfg v)),
        phase := .resp } ∧
    Response.bytes ⟨.ok, decrypt s.cfg v, BitVec.ofNat 4 (8 - tz (decrypt s.cfg v))⟩ = decChunk s.cfg v ∧
    (decrypt s.cfg v = 0 → 8 - tz (decrypt s.cfg v) = 0)) ∧
  decrypt cfgB 0x0002AAAA41431655 = 0x4142430000000000 ∧ 8 - tz 0x4142430000000000 = 3

/-- ECBE (R156) with its run start (R155): no response at this step, and nothing of an earlier run is read. -/
def Obligations.EcbeStartsAnEncryptRun : Prop :=
  ∀ (s : State) (d : Block), s.phase = .idle →
    decode ⟨0x90, d⟩ = .ok .ecbe ∧
    exec .ecbe s =
      .next { s with
        mode := .E, cnt := 0, olen := 0, oidx := 0, final := false, buf := noValue, obuf := noValue, phase := .run } ∧
    ∀ t, exec .ecbe s = .next t → cmdReady t = false ∧ inReady t = true

/-- ECBD (R157) with its run start (R155). -/
def Obligations.EcbdStartsADecryptRun : Prop :=
  ∀ (s : State) (d : Block), s.phase = .idle →
    decode ⟨0xA0, d⟩ = .ok .ecbd ∧
    exec .ecbd s =
      .next { s with
        mode := .D, cnt := 0, olen := 0, oidx := 0, final := false, buf := noValue, obuf := noValue, phase := .run } ∧
    ∀ t, exec .ecbd s = .next t → cmdReady t = false ∧ inReady t = true

/-! ## Accepting commands and consuming responses -/

/-- An unmatched word answers ADVISORY, 0, 0 and changes nothing else (R75, R202). -/
def Obligations.UnmatchedWordAnswersAdvisory : Prop :=
  ∀ (s : State) (c : Command) (rest : List Command) (why : Unmatched), Offers s c rest → decode c = .error why →
    step s = .next { s with
      rspStatus := .advisory, rspData := 0, rspLen := 0, phase := .resp,
      env := { s.env with cmds := rest, rst := s.env.rst.tail } }

/-- A step in IDLE runs the decoded command on offer: the head leaves the command port, rst's schedule moves on, nothing else. -/
def Obligations.StepRunsTheDecodedCommand : Prop :=
  ∀ (s : State) (c : Command) (rest : List Command) (i : Instr), Offers s c rest → decode c = .ok i →
    step s = exec i { s with env := { s.env with cmds := rest, rst := s.env.rst.tail } }

/-- Outside IDLE no step takes a command: it stays on offer, whatever the step is, a reset included (R36, R241); and a command's own
step would have no effect (log 11). -/
def Obligations.CommandsAreHeldOutsideIdle : Prop :=
  ∀ s : State, s.phase ≠ .idle →
    (∀ t, step s = .next t → t.env.cmds = s.env.cmds) ∧ (∀ i, exec i s = .next s)

/-- Consuming the response returns the block to IDLE and changes nothing else of it (R36, R210); the response consumed is the one
the host reads, and outside RESP there is none to read (R240). The record of responses is the model's (log 14). -/
def Obligations.ConsumingTheResponseReturnsToIdle : Prop :=
  (∀ (s : State) (n : Nat), s.phase = .resp → rstAsserted s = false → s.env.takes = n + 1 →
    hostRead s = .ok ⟨s.rspStatus, s.rspData, s.rspLen⟩ ∧
    step s = .next { s with
      phase := .idle,
      env := { s.env with
        takes := n, rst := s.env.rst.tail, responses := s.env.responses ++ [⟨s.rspStatus, s.rspData, s.rspLen⟩] } }) ∧
  (∀ s : State, s.phase ≠ .resp → hostRead s = .error .responseNotValid)

/-- Two commands that differ only in ignored bits give identical steps (R77). -/
def Obligations.IgnoredBitsHaveNoEffect : Prop :=
  ∀ (s : State) (w : BitVec 8) (d d' : Block) (rest : List Command), keptBits w d = keptBits w d' →
    decode ⟨w, d⟩ = decode ⟨w, d'⟩ ∧
    (s.phase = .idle → rstAsserted s = false →
      step (withCmds (⟨w, d⟩ :: rest) s) = step (withCmds (⟨w, d'⟩ :: rest) s))

/-- Block commands change only phase and the response register, always answer OK (R201), and their result is a function of the
command and the parameters P and S alone (R61). -/
def Obligations.BlockCommandsAnswerOnlyFromOperandAndConfig : Prop :=
  ∀ i : Instr, isBlockCommand i = true → ∀ s s' : State, s.phase = .idle → s'.phase = .idle →
    s.cfg.P = s'.cfg.P → s.cfg.S = s'.cfg.S →
    ∃ (d : Block) (n : BitVec 4), n.toNat ≤ 8 ∧
      exec i s = .next { s with rspStatus := .ok, rspData := d, rspLen := n, phase := .resp } ∧
      exec i s' = .next { s' with rspStatus := .ok, rspData := d, rspLen := n, phase := .resp }

/-! ## The cipher -/

/-- F in one expression (R101). -/
def Obligations.RoundFunctionInOneExpression : Prop :=
  ∀ (c : Config) (x : Word),
    roundF c x =
      ((sEntry c 0 (x.extractLsb' 24 8) + sEntry c 1 (x.extractLsb' 16 8)) ^^^ sEntry c 2 (x.extractLsb' 8 8)) +
        sEntry c 3 (x.extractLsb' 0 8)

/-- Encrypt and Decrypt follow their round traces (R105, R106, R107): `L i`, `R i` are the halves before round i, each round mixes
`F(F(L))` in and swaps (R104), and the whitening goes to the halves with the last swap undone. -/
def Obligations.TransformsFollowTheirRoundTrace : Prop :=
  ∀ (c : Config) (x : Block) (L R : Nat → Word), L 0 = hi32 x → R 0 = lo32 x →
    ((∀ i : Fin 16,
        L (i.val + 1) = R i.val ^^^ roundF c (roundF c (L i.val ^^^ pEntry c ⟨i.val, by omega⟩)) ∧
        R (i.val + 1) = L i.val ^^^ pEntry c ⟨i.val, by omega⟩) →
      encrypt c x = joinHalves (R 16 ^^^ pEntry c 17) (L 16 ^^^ pEntry c 16)) ∧
    ((∀ i : Fin 16,
        L (i.val + 1) = R i.val ^^^ roundF c (roundF c (L i.val ^^^ pEntry c ⟨17 - i.val, by omega⟩)) ∧
        R (i.val + 1) = L i.val ^^^ pEntry c ⟨17 - i.val, by omega⟩) →
      decrypt c x = joinHalves (R 16 ^^^ pEntry c 0) (L 16 ^^^ pEntry c 1))

/-- The inverse law, for every parameter set and every block (R108). -/
def Obligations.DecryptInvertsEncrypt : Prop :=
  ∀ (c : Config) (x : Block), decrypt c (encrypt c x) = x ∧ encrypt c (decrypt c x) = x

/-- Decryption is encryption under the reversed P-array (R109). -/
def Obligations.DecryptIsEncryptUnderReversedP : Prop :=
  (∀ (c : Config) (x : Block), decrypt c x = encrypt (reversedP c) x) ∧
  (∀ (c : Config), (∀ i : Fin 18, pEntry c i = pEntry c ⟨17 - i.val, by omega⟩) → ∀ x, encrypt c x = decrypt c x)

/-- The closed forms when every S-box entry is zero (R103, R110). -/
def Obligations.ZeroSBoxClosedForms : Prop :=
  ∀ c : Config, ZeroSBoxes c →
    (∀ w : Word, roundF c w = 0) ∧
    (∀ l r : Word,
      encrypt c (joinHalves l r) =
        joinHalves (r ^^^ xorP c [1, 3, 5, 7, 9, 11, 13, 15] ^^^ pEntry c 17)
          (l ^^^ xorP c [0, 2, 4, 6, 8, 10, 12, 14] ^^^ pEntry c 16) ∧
      decrypt c (joinHalves l r) =
        joinHalves (r ^^^ xorP c [0, 2, 4, 6, 8, 10, 12, 14, 16]) (l ^^^ xorP c [1, 3, 5, 7, 9, 11, 13, 15, 17]))

/-- Nothing reads the key material (R7, R23): a step on a state with other key material is the same step. -/
def Obligations.KeyMaterialIsNeverRead : Prop :=
  ∀ (s : State) (K : Vector Word 14),
    step { s with cfg := { s.cfg with K := K } } = onNext (fun t => { t with cfg := { t.cfg with K := K } }) (step s)

/-! ## The codec -/

/-- The codec laws (R135). -/
def Obligations.CodecLaws : Prop :=
  (∀ b : List Byte, b.length = 8 → unpack (pack b) = b) ∧ (∀ x : Block, pack (unpack x) = x) ∧
  (∀ b : List Byte, 1 ≤ b.length → b.length ≤ 8 →
    (strip (pack b) = b ↔ b.getLast? ≠ some 0#8) ∧
    strip (pack b) = (b.reverse.dropWhile (· == 0#8)).reverse) ∧
  pack [0x41] = 0x4100000000000000 ∧ pack [0x41, 0x00] = 0x4100000000000000

/-- Pack puts the bytes first and the padding after them, in the low-order bytes (R130); of no bytes it is 0 (R131). -/
def Obligations.PackPadsOnTheRight : Prop :=
  (∀ b : List Byte, b.length ≤ 8 → be8 (pack b) = b ++ List.replicate (8 - b.length) 0#8) ∧ pack [] = 0

/-- Strip removes exactly the trailing zero bytes (R133, R134): what it keeps, followed by `tz(x)` zero bytes, is `BE8(x)`, and what
it keeps does not end in a zero byte; it keeps nothing only of 0. -/
def Obligations.StripRemovesExactlyTheTrailingZeros : Prop :=
  (∀ x : Block, strip x ++ List.replicate (tz x) 0#8 = be8 x ∧ (strip x).getLast? ≠ some 0#8 ∧
    (strip x).length = 8 - tz x ∧ (strip x = [] ↔ x = 0)) ∧
  strip 0x4100420000000000 = [0x41, 0x00, 0x42] ∧ strip 0x0000000000000001 = [0, 0, 0, 0, 0, 0, 0, 1]

/-- The ciphertext value of a chunk (R165, R166). -/
def Obligations.CiphertextValueOfAChunk : Prop :=
  (∀ (c : Config) (b : List Byte), b.length = 8 → be8 (ctValue c b) = b) ∧
  (∀ (c : Config) (b : List Byte), b.length < 8 → c.shortCtMode = .zextHigh →
    be8 (ctValue c b) = List.replicate (8 - b.length) 0#8 ++ b) ∧
  (∀ (c : Config) (b : List Byte), b.length < 8 → c.shortCtMode = .padLow →
    be8 (ctValue c b) = b ++ List.replicate (8 - b.length) 0#8)

/-! ## Stream runs -/

/-- A byte that does not complete the chunk is stored at `buf[cnt]` and counted (R160). -/
def Obligations.ByteIsAppendedToTheChunk : Prop :=
  ∀ (s : State) (b : Byte) (rest : List Token), Feeds s (.byte b) rest → s.cnt.val < 7 →
    ∃ t, step s = .next t ∧
      t = { s with buf := t.buf, cnt := t.cnt, env := { s.env with input := rest, rst := s.env.rst.tail } } ∧
      t.cnt.val = s.cnt.val + 1 ∧
      (∀ j : Fin 8, t.buf[j] = if j.val = s.cnt.val then some b else s.buf[j])

/-- The byte that completes the chunk processes it in the same step (R160, R161, R163, R165, R167); that the freed chunk buffer holds
no value is the model's reading (log 8). -/
def Obligations.EighthByteProcessesTheChunk : Prop :=
  ∀ (s : State) (b : Byte) (rest : List Token) (held : List Byte), Feeds s (.byte b) rest → s.cnt.val = 7 →
    s.buf.toList.take 7 = held.map some →
    (s.mode = .E → step s = .next (followed (loaded s (encrypt s.cfg (pack (held ++ [b]))) 8 s.final rest))) ∧
    (s.mode = .D → step s = .next (followed (loaded s (decrypt s.cfg (beVal (held ++ [b])))
      (keptLen (decrypt s.cfg (beVal (held ++ [b])))) s.final rest)))

/-- End of stream inside a chunk: the partial chunk is the final one and is processed (R162, R163, R166); that the freed chunk buffer
holds no value is the model's reading (log 8). -/
def Obligations.EosProcessesThePartialChunk : Prop :=
  ∀ (s : State) (rest : List Token) (held : List Byte), Feeds s .eos rest → 1 ≤ s.cnt.val → s.cnt.val ≤ 7 →
    s.buf.toList.take s.cnt.val = held.map some →
    (s.mode = .E → step s = .next (followed (loaded s (encrypt s.cfg (pack held)) 8 true rest))) ∧
    (s.mode = .D → step s = .next (followed (loaded s (decrypt s.cfg (ctValue s.cfg held))
      (keptLen (decrypt s.cfg (ctValue s.cfg held))) true rest)))

/-- End of stream with no partial chunk ends the run with OK, 0, 0 (R164). -/
def Obligations.EosWithoutAChunkEndsTheRun : Prop :=
  ∀ (s : State) (rest : List Token), Feeds s .eos rest → s.cnt = 0 →
    step s = .next { s with
      rspStatus := .ok, rspData := 0, rspLen := 0, phase := .resp,
      env := { s.env with input := rest, rst := s.env.rst.tail } }

/-- An input error discards the partial chunk and ends the run with IN_ERR, 0, 0 (R204): the tokens after it stay in the source, and
the bytes written stay written. -/
def Obligations.InputErrorAbortsTheRun : Prop :=
  ∀ (s : State) (rest : List Token), Feeds s .err rest →
    step s = .next { s with
      cnt := 0, buf := noValue, rspStatus := .inErr, rspData := 0, rspLen := 0, phase := .resp,
      env := { s.env with input := rest, rst := s.env.rst.tail } }

/-- The sink's Ok writes the byte on offer; after the last byte of the block the run reads on, or ends with OK if the block was final
(R168, R169, R170). -/
def Obligations.AcceptedByteIsWritten : Prop :=
  ∀ (s : State) (b : Byte) (rest : List Answer), Emits s b .ok rest →
    ∃ t, step s = .next t ∧ t.oidx.val = s.oidx.val + 1 ∧
      t = { s with
        oidx := t.oidx, phase := t.phase, rspStatus := t.rspStatus, rspData := t.rspData, rspLen := t.rspLen,
        env := { s.env with answers := rest, output := s.env.output ++ [b], rst := s.env.rst.tail } } ∧
      (t.oidx ≠ s.olen → t.phase = .emit) ∧
      (t.oidx = s.olen → s.final = false → t.phase = .run) ∧
      (t.oidx = s.olen → s.final = true → t.phase = .resp ∧ t.rspStatus = .ok ∧ t.rspData = 0 ∧ t.rspLen = 0) ∧
      (t.phase ≠ .resp → t.rspStatus = s.rspStatus ∧ t.rspData = s.rspData ∧ t.rspLen = s.rspLen)

/-- An output error writes no byte and ends the run with OUT_ERR, 0, 0; the bytes written before stay, the tokens stay in the source
(R205). `olen` and `oidx` are left without meaning: some values within R42's bound (log 6). -/
def Obligations.OutputErrorAbortsTheRun : Prop :=
  ∀ (s : State) (b : Byte) (rest : List Answer), Emits s b .err rest →
    ∃ (olen' oidx' : Fin 9), oidx'.val ≤ olen'.val ∧
      step s = .next { s with
        obuf := noValue, olen := olen', oidx := oidx', drawn := s.drawn + 1,
        rspStatus := .outErr, rspData := 0, rspLen := 0, phase := .resp,
        env := { s.env with answers := rest, rst := s.env.rst.tail } }

/-- With nothing offered at the port of its phase the block waits: nothing changes but rst's schedule (R36, R158, R159, R234; that
a wait is a step is the model's choice, log 2). -/
def Obligations.BlockWaitsForItsPort : Prop :=
  ∀ s : State, rstAsserted s = false →
    (s.phase = .idle → s.env.cmds = []) → (s.phase = .resp → s.env.takes = 0) →
    (s.phase = .run → s.env.input = []) →
    (s.phase = .emit → s.env.answers = [] ∧ ∀ j : Fin 8, j.val < s.olen.val → (s.obuf[j]).isSome = true) →
    step s = .next { s with env := { s.env with rst := s.env.rst.tail } }

/-- What a completed run consumes, answers and writes (R171), for any bytes whatever (R173): exactly the N + 1 tokens and one answer
for each byte of output leave the ports. -/
def Obligations.CompletedRunWritesItsOutput : Prop :=
  ∀ (m : Mode) (s : State) (d : Block) (cs : List Command) (bytes : List Byte) (rest : List Token) (ans : List Answer),
    s.phase = .idle → (∀ l ∈ s.env.rst, l = false) → s.env.cmds = ⟨runWord m, d⟩ :: cs →
    s.env.input = bytes.map .byte ++ .eos :: rest →
    s.env.answers = List.replicate (runOutput m s.cfg bytes).length .ok ++ ans →
    ∃ (k : Nat) (t : State), core.run k s = .next t ∧
      t.phase = .resp ∧ t.rspStatus = .ok ∧ t.rspData = 0 ∧ t.rspLen = 0 ∧
      t.env.output = s.env.output ++ runOutput m s.cfg bytes ∧
      t.env.input = rest ∧ t.env.answers = ans ∧ t.env.cmds = cs ∧
      t.env.responses = s.env.responses ∧ t.env.takes = s.env.takes ∧ t.cfg = s.cfg

/-- Decrypting what was encrypted strips each chunk (R172): the whole stream comes back exactly when every chunk ends in a nonzero
byte, and SHORT_CT_MODE plays no part. -/
def Obligations.StreamRoundTrip : Prop :=
  ∀ (c : Config) (sm : ShortCtMode) (m : List Byte),
    8 ∣ (ecbeOutput c m).length ∧
    ecbdOutput { c with shortCtMode := sm } (ecbeOutput c m) = (chunksOf m).flatMap (fun b => strip (pack b)) ∧
    (ecbdOutput { c with shortCtMode := sm } (ecbeOutput c m) = m ↔ ∀ b ∈ chunksOf m, b.getLast? ≠ some 0#8)

/-- The chunks of a stream are its bytes in order, 8 to a chunk but for a shorter last one, and an encrypt run over n bytes writes
`8 * ceil(n / 8)` (R58, R163). -/
def Obligations.EncryptRunOutputLength : Prop :=
  ∀ (c : Config) (m : List Byte),
    (chunksOf m).flatten = m ∧ (∀ b ∈ chunksOf m, 1 ≤ b.length ∧ b.length ≤ 8) ∧
    (∀ b ∈ (chunksOf m).dropLast, b.length = 8) ∧
    (ecbeOutput c m).length = 8 * ((m.length + 7) / 8)

/-- The output of a block depends on its chunk, the mode and the parameters alone, not on the past of the run (R64, R174). -/
def Obligations.BlockOutputDependsOnlyOnItsChunk : Prop :=
  ∀ (s s' t t' : State) (b : Byte) (rest rest' : List Token), Feeds s (.byte b) rest → Feeds s' (.byte b) rest' →
    s.cnt.val = 7 → s'.cnt.val = 7 → s.buf.toList.take 7 = s'.buf.toList.take 7 → s.mode = s'.mode → s.cfg = s'.cfg →
    step s = .next t → step s' = .next t' → t.obuf = t'.obuf ∧ t.olen = t'.olen ∧ t.oidx = t'.oidx

/-! ## Reset -/

/-- A step with rst asserted, in any phase and whatever is offered (R230 to R233): the reset values of R43, the parameters unchanged,
bytes written stay written, tokens, commands and answers stay unconsumed, no response is delivered. -/
def Obligations.ResetStepGivesTheResetValues : Prop :=
  ∀ s : State, rstAsserted s = true →
    ∃ t, step s = .next t ∧ t.ResetValues ∧ t.rspLen.toNat ≤ 8 ∧ t.cfg = s.cfg ∧
      t.env = { s.env with rst := s.env.rst.tail }

/-- The state right after reset has the values R43 gives, for any parameters, which it carries unchanged. -/
def Obligations.StateAfterResetHasTheResetValues : Prop :=
  (∀ c : Config, (State.resetWith c).ResetValues ∧ (State.resetWith c).cfg = c) ∧ State.reset.ResetValues

/-! ## Invariants and whole-machine rules -/

/-- The invariants hold right after reset, whatever the parameters and whatever the environment offers. The state after reset has the
response length that the model chose (log 4), of which only `rspLen ≤ 8` is used. -/
def Obligations.InvariantHoldsAfterReset : Prop :=
  ∀ (c : Config) (e : Env), State.Inv { State.resetWith c with env := e }

/-- Every step keeps the invariants. -/
def Obligations.EveryStepKeepsTheInvariant : Prop :=
  ∀ s t : State, s.Inv → step s = .next t → t.Inv

/-- From a state that meets the invariants every step answers a next state: no value is read that is not there (I7), nothing is
refused, and no error is a fault (R203). -/
def Obligations.NoStepFromTheInvariantStops : Prop :=
  ∀ s : State, s.Inv → ∃ t, step s = .next t

/-- R42 clause by clause, in every state that any number of steps reaches from reset, for any parameters and any environment. The run
starts with the response register that the model chose for reset (log 4), of which only `rspLen ≤ 8` is used. -/
def Obligations.ReachableStatesMeetTheStatedInvariants : Prop :=
  ∀ (c : Config) (e : Env) (k : Nat) (t : State), core.run k { State.resetWith c with env := e } = .next t →
    t.cnt.val ≤ 8 ∧ (t.phase = .run → t.cnt.val ≤ 7) ∧
    t.oidx.val ≤ t.olen.val ∧ t.olen.val ≤ 8 ∧
    (t.phase = .emit → t.mode = .E → t.olen.val = 8) ∧
    (t.phase = .emit → ∀ j : Fin 8, j.val < t.olen.val → (t.obuf[j]).isSome = true) ∧
    t.rspLen.toNat ≤ 8

/-- No step changes the parameters (R10, R242). -/
def Obligations.NoStepWritesTheConfig : Prop :=
  ∀ s t : State, step s = .next t → t.cfg = s.cfg

/-- However long the block runs, bytes written stay written and responses consumed stay consumed (R38, R61): the records only grow
(they are the model's, log 14). -/
def Obligations.WrittenBytesAreNeverUndone : Prop :=
  ∀ (k : Nat) (s t : State), core.run k s = .next t →
    s.env.output <+: t.env.output ∧ s.env.responses <+: t.env.responses

/-- Each phase takes events of its own port alone (R208); with rst asserted none is taken (R230, R231). -/
def Obligations.EachPhaseTouchesOnlyItsPort : Prop :=
  ∀ s t : State, step s = .next t →
    (s.phase ≠ .idle ∨ rstAsserted s = true → t.env.cmds = s.env.cmds) ∧
    (s.phase ≠ .resp ∨ rstAsserted s = true → t.env.takes = s.env.takes ∧ t.env.responses = s.env.responses) ∧
    (s.phase ≠ .run ∨ rstAsserted s = true → t.env.input = s.env.input) ∧
    (s.phase ≠ .emit ∨ rstAsserted s = true → t.env.answers = s.env.answers ∧ t.env.output = s.env.output)

/-- Every step from a state that meets the invariants is a row of R32's table, a reset, or a wait (a step of the model's, log 2). -/
def Obligations.PhasesChangeOnlyAsTabled : Prop :=
  ∀ s t : State, s.Inv → step s = .next t → Tabled s t

/-- A run ends only with the response OK, IN_ERR or OUT_ERR, with data 0 and length 0, or by a reset; until then it stays in RUN or
EMIT (R154). -/
def Obligations.RunEndsOnlyByItsThreeResponses : Prop :=
  ∀ s t : State, s.Inv → s.phase = .run ∨ s.phase = .emit → step s = .next t →
    (rstAsserted s = true ∧ t.phase = .idle) ∨ (rstAsserted s = false ∧ (t.phase = .run ∨ t.phase = .emit)) ∨
    (rstAsserted s = false ∧ t.phase = .resp ∧ t.rspData = 0 ∧ t.rspLen = 0 ∧
      ((t.rspStatus = .ok ∧ (s.env.input.head? = some .eos ∧ s.phase = .run ∨ s.final = true ∧ s.phase = .emit)) ∨
       (t.rspStatus = .inErr ∧ s.phase = .run ∧ s.env.input.head? = some .err) ∨
       (t.rspStatus = .outErr ∧ s.phase = .emit ∧ s.env.answers.head? = some .err)))

/-- Apart from reset, the response register is written only by a step that enters RESP (R33). -/
def Obligations.ResponseRegisterIsWrittenOnlyByRespond : Prop :=
  ∀ s t : State, step s = .next t → rstAsserted s = false → (t.phase ≠ .resp ∨ s.phase = .resp) →
    t.rspStatus = s.rspStatus ∧ t.rspData = s.rspData ∧ t.rspLen = s.rspLen

/-- The handshake signals in every state (R34); and in a state that meets the invariants exactly one of them is up, an inference from
R34 with R42, R170 and R208 that no rule states. -/
def Obligations.ExactlyOneHandshakeSignalIsUp : Prop :=
  (∀ s : State,
    (cmdReady s = true ↔ s.phase = .idle) ∧ (rspValid s = true ↔ s.phase = .resp) ∧
    (inReady s = true ↔ s.phase = .run) ∧ (outValid s = true ↔ s.phase = .emit ∧ s.oidx.val < s.olen.val)) ∧
  (∀ s : State, s.Inv → [cmdReady s, rspValid s, inReady s, outValid s].count true = 1)

/-- What a party offers later does not change a step that does not wait for it (R158, R159, R246): the pace of the environment does
not matter. -/
def Obligations.LaterOffersDoNotChangeTheStep : Prop :=
  ∀ s : State,
    (∀ c : Command, (s.phase = .idle → s.env.cmds ≠ []) → step (offerCommand c s) = onNext (offerCommand c) (step s)) ∧
    (∀ tok : Token, (s.phase = .run → s.env.input ≠ []) → step (offerToken tok s) = onNext (offerToken tok) (step s)) ∧
    (∀ a : Answer, (s.phase = .emit → s.env.answers ≠ []) → step (offerAnswer a s) = onNext (offerAnswer a) (step s))

/-! ## Assembler -/

/-- The pseudo-commands expand as tabled (R79), and what they expand to decodes to the command meant. -/
def Obligations.PseudoCommandsExpandAsTabled : Prop :=
  (∀ b : List Byte, 1 ≤ b.length → b.length ≤ 8 →
    (AsmLine.packb b).assemble = (AsmLine.pack b.length (dataOfBytes b)).assemble ∧
    (AsmLine.echunkb b).assemble = (AsmLine.echunk b.length (dataOfBytes b)).assemble ∧
    (∃ c, (AsmLine.packb b).assemble = some c ∧ decode c = .ok (.pack b)) ∧
    (∃ c, (AsmLine.echunkb b).assemble = some c ∧ decode c = .ok (.echunk b)) ∧
    be8 (dataOfBytes b) = b ++ List.replicate (8 - b.length) 0#8) ∧
  (AsmLine.ecb .E).assemble = AsmLine.ecbe.assemble ∧
  (AsmLine.ecb .D).assemble = AsmLine.ecbd.assemble ∧
  AsmLine.advnop.assemble = (AsmLine.cmd 0x00 0).assemble
end

