-- ==== Sys2Proof/Laws/Bytes.lean ====
section
/-! SUPPORT. What the byte-order helpers do: lengths, and that `BE8` and `BEval` are each other's inverse on 8 bytes. -/

namespace Sys2Proof.Machine

@[simp] theorem be8_length (x : Block) : (be8 x).length = 8 := by simp [be8]

@[simp] theorem padTo8_length (b : List Byte) : (padTo8 b).length = 8 := by simp [padTo8]

theorem padTo8_of_le {b : List Byte} (h : b.length ≤ 8) : padTo8 b = b ++ List.replicate (8 - b.length) 0#8 := by
  rw [padTo8, List.take_append, List.take_of_length_le h, List.take_replicate]
  congr 2; omega

theorem padTo8_of_eq {b : List Byte} (h : b.length = 8) : padTo8 b = b := by
  simp [padTo8_of_le (Nat.le_of_eq h), h]

theorem tz_le (x : Block) : tz x ≤ 8 := by
  have h : ((be8 x).reverse.takeWhile (· == 0#8)).length ≤ (be8 x).reverse.length :=
    (List.takeWhile_prefix _).length_le
  simpa [tz] using h

@[simp] theorem keptLen_val (x : Block) : (keptLen x).val = 8 - tz x := rfl

theorem byteOf_toNat (x : Block) (j : Nat) : (byteOf x j).toNat = x.toNat / 2 ^ (56 - 8 * j) % 256 := by
  simp [byteOf, Nat.shiftRight_eq_div_pow]

/-- The eight bytes of a list of length 8. -/
theorem eq_of_length_eight {b : List Byte} (h : b.length = 8) :
    ∃ b0 b1 b2 b3 b4 b5 b6 b7, b = [b0, b1, b2, b3, b4, b5, b6, b7] := by
  match b, h with
  | [b0, b1, b2, b3, b4, b5, b6, b7], _ => exact ⟨b0, b1, b2, b3, b4, b5, b6, b7, rfl⟩

theorem be8_beVal {b : List Byte} (h : b.length = 8) : be8 (beVal b) = b := by
  obtain ⟨b0, b1, b2, b3, b4, b5, b6, b7, rfl⟩ := eq_of_length_eight h
  have := b0.isLt; have := b1.isLt; have := b2.isLt; have := b3.isLt
  have := b4.isLt; have := b5.isLt; have := b6.isLt; have := b7.isLt
  simp only [be8, List.range, List.range.loop, List.map_cons, List.map_nil, List.cons.injEq, and_true]
  refine ⟨?_, ?_, ?_, ?_, ?_, ?_, ?_, ?_⟩ <;> apply BitVec.eq_of_toNat_eq <;>
    simp only [byteOf_toNat, beVal, beNat, List.foldl, BitVec.toNat_ofNat] <;> omega

theorem beVal_be8 (x : Block) : beVal (be8 x) = x := by
  have := x.isLt
  apply BitVec.eq_of_toNat_eq
  simp only [beVal, beNat, be8, List.range, List.range.loop, List.map_cons, List.map_nil, List.foldl,
    BitVec.toNat_ofNat, byteOf_toNat]
  omega

theorem be8_injective {x y : Block} (h : be8 x = be8 y) : x = y := by
  rw [← beVal_be8 x, ← beVal_be8 y, h]

@[simp] theorem be8_dataOfBytes (b : List Byte) : be8 (dataOfBytes b) = padTo8 b := be8_beVal (padTo8_length b)

theorem joinHalves_toNat (l r : Word) : (joinHalves l r).toNat = l.toNat * 2 ^ 32 + r.toNat := by
  have := l.isLt; have := r.isLt
  simp only [joinHalves, BitVec.toNat_ofNat]; omega

theorem hi32_toNat (x : Block) : (hi32 x).toNat = x.toNat / 2 ^ 32 := by
  have := x.isLt
  simp [hi32, Nat.shiftRight_eq_div_pow]; omega

theorem lo32_toNat (x : Block) : (lo32 x).toNat = x.toNat % 2 ^ 32 := by simp [lo32]

@[simp] theorem hi32_join (l r : Word) : hi32 (joinHalves l r) = l := by
  have := r.isLt
  apply BitVec.eq_of_toNat_eq; rw [hi32_toNat, joinHalves_toNat]; omega

@[simp] theorem lo32_join (l r : Word) : lo32 (joinHalves l r) = r := by
  have := r.isLt
  apply BitVec.eq_of_toNat_eq; rw [lo32_toNat, joinHalves_toNat]; omega

@[simp] theorem join_hi_lo (x : Block) : joinHalves (hi32 x) (lo32 x) = x := by
  apply BitVec.eq_of_toNat_eq; rw [joinHalves_toNat, hi32_toNat, lo32_toNat]; omega

@[simp] theorem lo32_zext64 (w : Word) : lo32 (zext64 w) = w := by
  have := w.isLt
  apply BitVec.eq_of_toNat_eq; rw [lo32_toNat, zext64, BitVec.toNat_setWidth]; omega

end Sys2Proof.Machine
end

