-- ==== Sys2Proof/Laws/Chunks.lean ====
section
/-! SUPPORT. How a stream is cut into chunks (R58), and the induction over its chunks. -/

namespace Sys2Proof.Machine

/-- A sequence that is neither empty nor at least 8 bytes long has 1 to 7 bytes. -/
theorem length_of_short (s : List Byte)
    (h1 : ∀ (b0 b1 b2 b3 b4 b5 b6 b7 : Byte) (rest : List Byte),
      s = b0 :: b1 :: b2 :: b3 :: b4 :: b5 :: b6 :: b7 :: rest → False)
    (h2 : s = [] → False) : 1 ≤ s.length ∧ s.length ≤ 7 := by
  match s with
  | [] => exact absurd rfl h2
  | [_] | [_, _] | [_, _, _] | [_, _, _, _] | [_, _, _, _, _] | [_, _, _, _, _, _] | [_, _, _, _, _, _, _] => simp
  | _ :: _ :: _ :: _ :: _ :: _ :: _ :: _ :: _ => exact (h1 _ _ _ _ _ _ _ _ _ rfl).elim

theorem chunksOf_nil : chunksOf [] = [] := by simp [chunksOf]

theorem chunksOf_short {s : List Byte} (h : 1 ≤ s.length ∧ s.length ≤ 7) : chunksOf s = [s] := by
  match s, h with
  | [], h => simp at h
  | [_], _ | [_, _], _ | [_, _, _], _ | [_, _, _, _], _ | [_, _, _, _, _], _ | [_, _, _, _, _, _], _
  | [_, _, _, _, _, _, _], _ => rfl
  | _ :: _ :: _ :: _ :: _ :: _ :: _ :: _ :: _, h => simp at h; omega

theorem chunksOf_full {b rest : List Byte} (h : b.length = 8) : chunksOf (b ++ rest) = b :: chunksOf rest := by
  match b, h with
  | [_, _, _, _, _, _, _, _], _ => rfl

/-- Induction over a stream chunk by chunk. -/
theorem chunk_induction {P : List Byte → Prop} (nil : P []) (short : ∀ s, 1 ≤ s.length → s.length ≤ 7 → P s)
    (full : ∀ b rest, b.length = 8 → P rest → P (b ++ rest)) (m : List Byte) : P m := by
  induction m using chunksOf.induct with
  | case1 b0 b1 b2 b3 b4 b5 b6 b7 rest ih => exact full [b0, b1, b2, b3, b4, b5, b6, b7] rest rfl ih
  | case2 => exact nil
  | case3 s h1 h2 => exact short s (length_of_short s h1 h2).1 (length_of_short s h1 h2).2

@[simp] theorem encChunk_length (c : Config) (b : List Byte) : (encChunk c b).length = 8 := by
  simp [encChunk, unpack, be8]

end Sys2Proof.Machine
end

