-- ==== Sys2Proof/Laws/State.lean ====
section
/-! SUPPORT. One lemma per field per named update of the state, each true by rfl, so that no proof unfolds a record update. -/

namespace Sys2Proof.Machine

/-! `respond` -/

@[simp] theorem respond_phase (st : Status) (d : Block) (n : BitVec 4) (s : State) : (respond st d n s).phase = .resp := rfl
@[simp] theorem respond_mode (st : Status) (d : Block) (n : BitVec 4) (s : State) : (respond st d n s).mode = s.mode := rfl
@[simp] theorem respond_buf (st : Status) (d : Block) (n : BitVec 4) (s : State) : (respond st d n s).buf = s.buf := rfl
@[simp] theorem respond_cnt (st : Status) (d : Block) (n : BitVec 4) (s : State) : (respond st d n s).cnt = s.cnt := rfl
@[simp] theorem respond_obuf (st : Status) (d : Block) (n : BitVec 4) (s : State) : (respond st d n s).obuf = s.obuf := rfl
@[simp] theorem respond_olen (st : Status) (d : Block) (n : BitVec 4) (s : State) : (respond st d n s).olen = s.olen := rfl
@[simp] theorem respond_oidx (st : Status) (d : Block) (n : BitVec 4) (s : State) : (respond st d n s).oidx = s.oidx := rfl
@[simp] theorem respond_final (st : Status) (d : Block) (n : BitVec 4) (s : State) : (respond st d n s).final = s.final := rfl
@[simp] theorem respond_rspStatus (st : Status) (d : Block) (n : BitVec 4) (s : State) : (respond st d n s).rspStatus = st := rfl
@[simp] theorem respond_rspData (st : Status) (d : Block) (n : BitVec 4) (s : State) : (respond st d n s).rspData = d := rfl
@[simp] theorem respond_rspLen (st : Status) (d : Block) (n : BitVec 4) (s : State) : (respond st d n s).rspLen = n := rfl
@[simp] theorem respond_cfg (st : Status) (d : Block) (n : BitVec 4) (s : State) : (respond st d n s).cfg = s.cfg := rfl
@[simp] theorem respond_env (st : Status) (d : Block) (n : BitVec 4) (s : State) : (respond st d n s).env = s.env := rfl
@[simp] theorem respond_drawn (st : Status) (d : Block) (n : BitVec 4) (s : State) : (respond st d n s).drawn = s.drawn := rfl

/-! `withCmds` -/

@[simp] theorem withCmds_phase (cs : List Command) (s : State) : (withCmds cs s).phase = s.phase := rfl
@[simp] theorem withCmds_mode (cs : List Command) (s : State) : (withCmds cs s).mode = s.mode := rfl
@[simp] theorem withCmds_buf (cs : List Command) (s : State) : (withCmds cs s).buf = s.buf := rfl
@[simp] theorem withCmds_cnt (cs : List Command) (s : State) : (withCmds cs s).cnt = s.cnt := rfl
@[simp] theorem withCmds_obuf (cs : List Command) (s : State) : (withCmds cs s).obuf = s.obuf := rfl
@[simp] theorem withCmds_olen (cs : List Command) (s : State) : (withCmds cs s).olen = s.olen := rfl
@[simp] theorem withCmds_oidx (cs : List Command) (s : State) : (withCmds cs s).oidx = s.oidx := rfl
@[simp] theorem withCmds_final (cs : List Command) (s : State) : (withCmds cs s).final = s.final := rfl
@[simp] theorem withCmds_rspStatus (cs : List Command) (s : State) : (withCmds cs s).rspStatus = s.rspStatus := rfl
@[simp] theorem withCmds_rspData (cs : List Command) (s : State) : (withCmds cs s).rspData = s.rspData := rfl
@[simp] theorem withCmds_rspLen (cs : List Command) (s : State) : (withCmds cs s).rspLen = s.rspLen := rfl
@[simp] theorem withCmds_cfg (cs : List Command) (s : State) : (withCmds cs s).cfg = s.cfg := rfl
@[simp] theorem withCmds_env (cs : List Command) (s : State) : (withCmds cs s).env = { s.env with cmds := cs } := rfl
@[simp] theorem withCmds_drawn (cs : List Command) (s : State) : (withCmds cs s).drawn = s.drawn := rfl

/-! `withTakes` -/

@[simp] theorem withTakes_phase (n : Nat) (s : State) : (withTakes n s).phase = s.phase := rfl
@[simp] theorem withTakes_mode (n : Nat) (s : State) : (withTakes n s).mode = s.mode := rfl
@[simp] theorem withTakes_buf (n : Nat) (s : State) : (withTakes n s).buf = s.buf := rfl
@[simp] theorem withTakes_cnt (n : Nat) (s : State) : (withTakes n s).cnt = s.cnt := rfl
@[simp] theorem withTakes_obuf (n : Nat) (s : State) : (withTakes n s).obuf = s.obuf := rfl
@[simp] theorem withTakes_olen (n : Nat) (s : State) : (withTakes n s).olen = s.olen := rfl
@[simp] theorem withTakes_oidx (n : Nat) (s : State) : (withTakes n s).oidx = s.oidx := rfl
@[simp] theorem withTakes_final (n : Nat) (s : State) : (withTakes n s).final = s.final := rfl
@[simp] theorem withTakes_rspStatus (n : Nat) (s : State) : (withTakes n s).rspStatus = s.rspStatus := rfl
@[simp] theorem withTakes_rspData (n : Nat) (s : State) : (withTakes n s).rspData = s.rspData := rfl
@[simp] theorem withTakes_rspLen (n : Nat) (s : State) : (withTakes n s).rspLen = s.rspLen := rfl
@[simp] theorem withTakes_cfg (n : Nat) (s : State) : (withTakes n s).cfg = s.cfg := rfl
@[simp] theorem withTakes_env (n : Nat) (s : State) : (withTakes n s).env = { s.env with takes := n } := rfl
@[simp] theorem withTakes_drawn (n : Nat) (s : State) : (withTakes n s).drawn = s.drawn := rfl

/-! `withInput` -/

@[simp] theorem withInput_phase (ts : List Token) (s : State) : (withInput ts s).phase = s.phase := rfl
@[simp] theorem withInput_mode (ts : List Token) (s : State) : (withInput ts s).mode = s.mode := rfl
@[simp] theorem withInput_buf (ts : List Token) (s : State) : (withInput ts s).buf = s.buf := rfl
@[simp] theorem withInput_cnt (ts : List Token) (s : State) : (withInput ts s).cnt = s.cnt := rfl
@[simp] theorem withInput_obuf (ts : List Token) (s : State) : (withInput ts s).obuf = s.obuf := rfl
@[simp] theorem withInput_olen (ts : List Token) (s : State) : (withInput ts s).olen = s.olen := rfl
@[simp] theorem withInput_oidx (ts : List Token) (s : State) : (withInput ts s).oidx = s.oidx := rfl
@[simp] theorem withInput_final (ts : List Token) (s : State) : (withInput ts s).final = s.final := rfl
@[simp] theorem withInput_rspStatus (ts : List Token) (s : State) : (withInput ts s).rspStatus = s.rspStatus := rfl
@[simp] theorem withInput_rspData (ts : List Token) (s : State) : (withInput ts s).rspData = s.rspData := rfl
@[simp] theorem withInput_rspLen (ts : List Token) (s : State) : (withInput ts s).rspLen = s.rspLen := rfl
@[simp] theorem withInput_cfg (ts : List Token) (s : State) : (withInput ts s).cfg = s.cfg := rfl
@[simp] theorem withInput_env (ts : List Token) (s : State) : (withInput ts s).env = { s.env with input := ts } := rfl
@[simp] theorem withInput_drawn (ts : List Token) (s : State) : (withInput ts s).drawn = s.drawn := rfl

/-! `withAnswers` -/

@[simp] theorem withAnswers_phase (as : List Answer) (s : State) : (withAnswers as s).phase = s.phase := rfl
@[simp] theorem withAnswers_mode (as : List Answer) (s : State) : (withAnswers as s).mode = s.mode := rfl
@[simp] theorem withAnswers_buf (as : List Answer) (s : State) : (withAnswers as s).buf = s.buf := rfl
@[simp] theorem withAnswers_cnt (as : List Answer) (s : State) : (withAnswers as s).cnt = s.cnt := rfl
@[simp] theorem withAnswers_obuf (as : List Answer) (s : State) : (withAnswers as s).obuf = s.obuf := rfl
@[simp] theorem withAnswers_olen (as : List Answer) (s : State) : (withAnswers as s).olen = s.olen := rfl
@[simp] theorem withAnswers_oidx (as : List Answer) (s : State) : (withAnswers as s).oidx = s.oidx := rfl
@[simp] theorem withAnswers_final (as : List Answer) (s : State) : (withAnswers as s).final = s.final := rfl
@[simp] theorem withAnswers_rspStatus (as : List Answer) (s : State) : (withAnswers as s).rspStatus = s.rspStatus := rfl
@[simp] theorem withAnswers_rspData (as : List Answer) (s : State) : (withAnswers as s).rspData = s.rspData := rfl
@[simp] theorem withAnswers_rspLen (as : List Answer) (s : State) : (withAnswers as s).rspLen = s.rspLen := rfl
@[simp] theorem withAnswers_cfg (as : List Answer) (s : State) : (withAnswers as s).cfg = s.cfg := rfl
@[simp] theorem withAnswers_env (as : List Answer) (s : State) : (withAnswers as s).env = { s.env with answers := as } := rfl
@[simp] theorem withAnswers_drawn (as : List Answer) (s : State) : (withAnswers as s).drawn = s.drawn := rfl

/-! `wrote` -/

@[simp] theorem wrote_phase (b : Byte) (s : State) : (wrote b s).phase = s.phase := rfl
@[simp] theorem wrote_mode (b : Byte) (s : State) : (wrote b s).mode = s.mode := rfl
@[simp] theorem wrote_buf (b : Byte) (s : State) : (wrote b s).buf = s.buf := rfl
@[simp] theorem wrote_cnt (b : Byte) (s : State) : (wrote b s).cnt = s.cnt := rfl
@[simp] theorem wrote_obuf (b : Byte) (s : State) : (wrote b s).obuf = s.obuf := rfl
@[simp] theorem wrote_olen (b : Byte) (s : State) : (wrote b s).olen = s.olen := rfl
@[simp] theorem wrote_oidx (b : Byte) (s : State) : (wrote b s).oidx = s.oidx := rfl
@[simp] theorem wrote_final (b : Byte) (s : State) : (wrote b s).final = s.final := rfl
@[simp] theorem wrote_rspStatus (b : Byte) (s : State) : (wrote b s).rspStatus = s.rspStatus := rfl
@[simp] theorem wrote_rspData (b : Byte) (s : State) : (wrote b s).rspData = s.rspData := rfl
@[simp] theorem wrote_rspLen (b : Byte) (s : State) : (wrote b s).rspLen = s.rspLen := rfl
@[simp] theorem wrote_cfg (b : Byte) (s : State) : (wrote b s).cfg = s.cfg := rfl
@[simp] theorem wrote_env (b : Byte) (s : State) : (wrote b s).env = { s.env with output := s.env.output ++ [b] } := rfl
@[simp] theorem wrote_drawn (b : Byte) (s : State) : (wrote b s).drawn = s.drawn := rfl

/-! `pushByte` -/

@[simp] theorem pushByte_phase (b : Byte) (s : State) : (pushByte b s).phase = s.phase := rfl
@[simp] theorem pushByte_mode (b : Byte) (s : State) : (pushByte b s).mode = s.mode := rfl
@[simp] theorem pushByte_buf (b : Byte) (s : State) : (pushByte b s).buf = s.buf.setIfInBounds s.cnt.val (some b) := rfl
@[simp] theorem pushByte_cnt (b : Byte) (s : State) : (pushByte b s).cnt = Fin.ofNat 9 (s.cnt.val + 1) := rfl
@[simp] theorem pushByte_obuf (b : Byte) (s : State) : (pushByte b s).obuf = s.obuf := rfl
@[simp] theorem pushByte_olen (b : Byte) (s : State) : (pushByte b s).olen = s.olen := rfl
@[simp] theorem pushByte_oidx (b : Byte) (s : State) : (pushByte b s).oidx = s.oidx := rfl
@[simp] theorem pushByte_final (b : Byte) (s : State) : (pushByte b s).final = s.final := rfl
@[simp] theorem pushByte_rspStatus (b : Byte) (s : State) : (pushByte b s).rspStatus = s.rspStatus := rfl
@[simp] theorem pushByte_rspData (b : Byte) (s : State) : (pushByte b s).rspData = s.rspData := rfl
@[simp] theorem pushByte_rspLen (b : Byte) (s : State) : (pushByte b s).rspLen = s.rspLen := rfl
@[simp] theorem pushByte_cfg (b : Byte) (s : State) : (pushByte b s).cfg = s.cfg := rfl
@[simp] theorem pushByte_env (b : Byte) (s : State) : (pushByte b s).env = s.env := rfl
@[simp] theorem pushByte_drawn (b : Byte) (s : State) : (pushByte b s).drawn = s.drawn := rfl

/-! `markFinal` -/

@[simp] theorem markFinal_phase (s : State) : (markFinal s).phase = s.phase := rfl
@[simp] theorem markFinal_mode (s : State) : (markFinal s).mode = s.mode := rfl
@[simp] theorem markFinal_buf (s : State) : (markFinal s).buf = s.buf := rfl
@[simp] theorem markFinal_cnt (s : State) : (markFinal s).cnt = s.cnt := rfl
@[simp] theorem markFinal_obuf (s : State) : (markFinal s).obuf = s.obuf := rfl
@[simp] theorem markFinal_olen (s : State) : (markFinal s).olen = s.olen := rfl
@[simp] theorem markFinal_oidx (s : State) : (markFinal s).oidx = s.oidx := rfl
@[simp] theorem markFinal_final (s : State) : (markFinal s).final = true := rfl
@[simp] theorem markFinal_rspStatus (s : State) : (markFinal s).rspStatus = s.rspStatus := rfl
@[simp] theorem markFinal_rspData (s : State) : (markFinal s).rspData = s.rspData := rfl
@[simp] theorem markFinal_rspLen (s : State) : (markFinal s).rspLen = s.rspLen := rfl
@[simp] theorem markFinal_cfg (s : State) : (markFinal s).cfg = s.cfg := rfl
@[simp] theorem markFinal_env (s : State) : (markFinal s).env = s.env := rfl
@[simp] theorem markFinal_drawn (s : State) : (markFinal s).drawn = s.drawn := rfl

/-! `withOidx` -/

@[simp] theorem withOidx_phase (n : Fin 9) (s : State) : (withOidx n s).phase = s.phase := rfl
@[simp] theorem withOidx_mode (n : Fin 9) (s : State) : (withOidx n s).mode = s.mode := rfl
@[simp] theorem withOidx_buf (n : Fin 9) (s : State) : (withOidx n s).buf = s.buf := rfl
@[simp] theorem withOidx_cnt (n : Fin 9) (s : State) : (withOidx n s).cnt = s.cnt := rfl
@[simp] theorem withOidx_obuf (n : Fin 9) (s : State) : (withOidx n s).obuf = s.obuf := rfl
@[simp] theorem withOidx_olen (n : Fin 9) (s : State) : (withOidx n s).olen = s.olen := rfl
@[simp] theorem withOidx_oidx (n : Fin 9) (s : State) : (withOidx n s).oidx = n := rfl
@[simp] theorem withOidx_final (n : Fin 9) (s : State) : (withOidx n s).final = s.final := rfl
@[simp] theorem withOidx_rspStatus (n : Fin 9) (s : State) : (withOidx n s).rspStatus = s.rspStatus := rfl
@[simp] theorem withOidx_rspData (n : Fin 9) (s : State) : (withOidx n s).rspData = s.rspData := rfl
@[simp] theorem withOidx_rspLen (n : Fin 9) (s : State) : (withOidx n s).rspLen = s.rspLen := rfl
@[simp] theorem withOidx_cfg (n : Fin 9) (s : State) : (withOidx n s).cfg = s.cfg := rfl
@[simp] theorem withOidx_env (n : Fin 9) (s : State) : (withOidx n s).env = s.env := rfl
@[simp] theorem withOidx_drawn (n : Fin 9) (s : State) : (withOidx n s).drawn = s.drawn := rfl

/-! `passRst` -/

@[simp] theorem passRst_phase (s : State) : (passRst s).phase = s.phase := rfl
@[simp] theorem passRst_mode (s : State) : (passRst s).mode = s.mode := rfl
@[simp] theorem passRst_buf (s : State) : (passRst s).buf = s.buf := rfl
@[simp] theorem passRst_cnt (s : State) : (passRst s).cnt = s.cnt := rfl
@[simp] theorem passRst_obuf (s : State) : (passRst s).obuf = s.obuf := rfl
@[simp] theorem passRst_olen (s : State) : (passRst s).olen = s.olen := rfl
@[simp] theorem passRst_oidx (s : State) : (passRst s).oidx = s.oidx := rfl
@[simp] theorem passRst_final (s : State) : (passRst s).final = s.final := rfl
@[simp] theorem passRst_rspStatus (s : State) : (passRst s).rspStatus = s.rspStatus := rfl
@[simp] theorem passRst_rspData (s : State) : (passRst s).rspData = s.rspData := rfl
@[simp] theorem passRst_rspLen (s : State) : (passRst s).rspLen = s.rspLen := rfl
@[simp] theorem passRst_cfg (s : State) : (passRst s).cfg = s.cfg := rfl
@[simp] theorem passRst_env (s : State) : (passRst s).env = { s.env with rst := s.env.rst.tail } := rfl
@[simp] theorem passRst_drawn (s : State) : (passRst s).drawn = s.drawn := rfl

/-! `consumeResponse` -/

@[simp] theorem consumeResponse_phase (s : State) : (consumeResponse s).phase = .idle := rfl
@[simp] theorem consumeResponse_mode (s : State) : (consumeResponse s).mode = s.mode := rfl
@[simp] theorem consumeResponse_buf (s : State) : (consumeResponse s).buf = s.buf := rfl
@[simp] theorem consumeResponse_cnt (s : State) : (consumeResponse s).cnt = s.cnt := rfl
@[simp] theorem consumeResponse_obuf (s : State) : (consumeResponse s).obuf = s.obuf := rfl
@[simp] theorem consumeResponse_olen (s : State) : (consumeResponse s).olen = s.olen := rfl
@[simp] theorem consumeResponse_oidx (s : State) : (consumeResponse s).oidx = s.oidx := rfl
@[simp] theorem consumeResponse_final (s : State) : (consumeResponse s).final = s.final := rfl
@[simp] theorem consumeResponse_rspStatus (s : State) : (consumeResponse s).rspStatus = s.rspStatus := rfl
@[simp] theorem consumeResponse_rspData (s : State) : (consumeResponse s).rspData = s.rspData := rfl
@[simp] theorem consumeResponse_rspLen (s : State) : (consumeResponse s).rspLen = s.rspLen := rfl
@[simp] theorem consumeResponse_cfg (s : State) : (consumeResponse s).cfg = s.cfg := rfl
@[simp] theorem consumeResponse_env (s : State) : (consumeResponse s).env = { s.env with responses := s.env.responses ++ [⟨s.rspStatus, s.rspData, s.rspLen⟩] } := rfl
@[simp] theorem consumeResponse_drawn (s : State) : (consumeResponse s).drawn = s.drawn := rfl

/-! `startRun` -/

@[simp] theorem startRun_phase (m : Mode) (s : State) : (startRun m s).phase = .run := rfl
@[simp] theorem startRun_mode (m : Mode) (s : State) : (startRun m s).mode = m := rfl
@[simp] theorem startRun_buf (m : Mode) (s : State) : (startRun m s).buf = noValue := rfl
@[simp] theorem startRun_cnt (m : Mode) (s : State) : (startRun m s).cnt = 0 := rfl
@[simp] theorem startRun_obuf (m : Mode) (s : State) : (startRun m s).obuf = noValue := rfl
@[simp] theorem startRun_olen (m : Mode) (s : State) : (startRun m s).olen = 0 := rfl
@[simp] theorem startRun_oidx (m : Mode) (s : State) : (startRun m s).oidx = 0 := rfl
@[simp] theorem startRun_final (m : Mode) (s : State) : (startRun m s).final = false := rfl
@[simp] theorem startRun_rspStatus (m : Mode) (s : State) : (startRun m s).rspStatus = s.rspStatus := rfl
@[simp] theorem startRun_rspData (m : Mode) (s : State) : (startRun m s).rspData = s.rspData := rfl
@[simp] theorem startRun_rspLen (m : Mode) (s : State) : (startRun m s).rspLen = s.rspLen := rfl
@[simp] theorem startRun_cfg (m : Mode) (s : State) : (startRun m s).cfg = s.cfg := rfl
@[simp] theorem startRun_env (m : Mode) (s : State) : (startRun m s).env = s.env := rfl
@[simp] theorem startRun_drawn (m : Mode) (s : State) : (startRun m s).drawn = s.drawn := rfl

/-! `loadBlock` -/

@[simp] theorem loadBlock_phase (y : Block) (s : State) : (loadBlock y s).phase = s.phase := rfl
@[simp] theorem loadBlock_mode (y : Block) (s : State) : (loadBlock y s).mode = s.mode := rfl
@[simp] theorem loadBlock_buf (y : Block) (s : State) : (loadBlock y s).buf = noValue := rfl
@[simp] theorem loadBlock_cnt (y : Block) (s : State) : (loadBlock y s).cnt = 0 := rfl
@[simp] theorem loadBlock_obuf (y : Block) (s : State) : (loadBlock y s).obuf = Vector.ofFn fun j : Fin 8 => some (byteOf y j.val) := rfl
@[simp] theorem loadBlock_olen (y : Block) (s : State) : (loadBlock y s).olen = emitLen s.mode y := rfl
@[simp] theorem loadBlock_oidx (y : Block) (s : State) : (loadBlock y s).oidx = 0 := rfl
@[simp] theorem loadBlock_final (y : Block) (s : State) : (loadBlock y s).final = s.final := rfl
@[simp] theorem loadBlock_rspStatus (y : Block) (s : State) : (loadBlock y s).rspStatus = s.rspStatus := rfl
@[simp] theorem loadBlock_rspData (y : Block) (s : State) : (loadBlock y s).rspData = s.rspData := rfl
@[simp] theorem loadBlock_rspLen (y : Block) (s : State) : (loadBlock y s).rspLen = s.rspLen := rfl
@[simp] theorem loadBlock_cfg (y : Block) (s : State) : (loadBlock y s).cfg = s.cfg := rfl
@[simp] theorem loadBlock_env (y : Block) (s : State) : (loadBlock y s).env = s.env := rfl
@[simp] theorem loadBlock_drawn (y : Block) (s : State) : (loadBlock y s).drawn = s.drawn := rfl

/-! `resetBlock` -/

@[simp] theorem resetBlock_phase (s : State) : (resetBlock s).phase = .idle := rfl
@[simp] theorem resetBlock_mode (s : State) : (resetBlock s).mode = Mode.ofBit (Config.freeModeBit s.drawn) := rfl
@[simp] theorem resetBlock_buf (s : State) : (resetBlock s).buf = noValue := rfl
@[simp] theorem resetBlock_cnt (s : State) : (resetBlock s).cnt = 0 := rfl
@[simp] theorem resetBlock_obuf (s : State) : (resetBlock s).obuf = noValue := rfl
@[simp] theorem resetBlock_olen (s : State) : (resetBlock s).olen = 0 := rfl
@[simp] theorem resetBlock_oidx (s : State) : (resetBlock s).oidx = 0 := rfl
@[simp] theorem resetBlock_final (s : State) : (resetBlock s).final = false := rfl
@[simp] theorem resetBlock_rspStatus (s : State) : (resetBlock s).rspStatus = Status.ofCode (Config.freeStatusBits s.drawn) := rfl
@[simp] theorem resetBlock_rspData (s : State) : (resetBlock s).rspData = Config.freeRspData s.drawn := rfl
@[simp] theorem resetBlock_rspLen (s : State) : (resetBlock s).rspLen = BitVec.ofNat 4 (Config.freeRspLen s.drawn).val := rfl
@[simp] theorem resetBlock_cfg (s : State) : (resetBlock s).cfg = s.cfg := rfl
@[simp] theorem resetBlock_env (s : State) : (resetBlock s).env = s.env := rfl
@[simp] theorem resetBlock_drawn (s : State) : (resetBlock s).drawn = s.drawn + 1 := rfl

/-! `raiseIoError_inp` -/

@[simp] theorem raiseIoError_inp_phase (s : State) : (raiseIoError .inp s).phase = .resp := rfl
@[simp] theorem raiseIoError_inp_mode (s : State) : (raiseIoError .inp s).mode = s.mode := rfl
@[simp] theorem raiseIoError_inp_buf (s : State) : (raiseIoError .inp s).buf = noValue := rfl
@[simp] theorem raiseIoError_inp_cnt (s : State) : (raiseIoError .inp s).cnt = 0 := rfl
@[simp] theorem raiseIoError_inp_obuf (s : State) : (raiseIoError .inp s).obuf = s.obuf := rfl
@[simp] theorem raiseIoError_inp_olen (s : State) : (raiseIoError .inp s).olen = s.olen := rfl
@[simp] theorem raiseIoError_inp_oidx (s : State) : (raiseIoError .inp s).oidx = s.oidx := rfl
@[simp] theorem raiseIoError_inp_final (s : State) : (raiseIoError .inp s).final = s.final := rfl
@[simp] theorem raiseIoError_inp_rspStatus (s : State) : (raiseIoError .inp s).rspStatus = .inErr := rfl
@[simp] theorem raiseIoError_inp_rspData (s : State) : (raiseIoError .inp s).rspData = 0 := rfl
@[simp] theorem raiseIoError_inp_rspLen (s : State) : (raiseIoError .inp s).rspLen = 0 := rfl
@[simp] theorem raiseIoError_inp_cfg (s : State) : (raiseIoError .inp s).cfg = s.cfg := rfl
@[simp] theorem raiseIoError_inp_env (s : State) : (raiseIoError .inp s).env = s.env := rfl
@[simp] theorem raiseIoError_inp_drawn (s : State) : (raiseIoError .inp s).drawn = s.drawn := rfl

/-! `raiseIoError_out` -/

@[simp] theorem raiseIoError_out_phase (s : State) : (raiseIoError .out s).phase = .resp := rfl
@[simp] theorem raiseIoError_out_mode (s : State) : (raiseIoError .out s).mode = s.mode := rfl
@[simp] theorem raiseIoError_out_buf (s : State) : (raiseIoError .out s).buf = s.buf := rfl
@[simp] theorem raiseIoError_out_cnt (s : State) : (raiseIoError .out s).cnt = s.cnt := rfl
@[simp] theorem raiseIoError_out_obuf (s : State) : (raiseIoError .out s).obuf = noValue := rfl
@[simp] theorem raiseIoError_out_olen (s : State) : (raiseIoError .out s).olen = olenAfterError s := rfl
@[simp] theorem raiseIoError_out_oidx (s : State) : (raiseIoError .out s).oidx = oidxAfterError s := rfl
@[simp] theorem raiseIoError_out_final (s : State) : (raiseIoError .out s).final = s.final := rfl
@[simp] theorem raiseIoError_out_rspStatus (s : State) : (raiseIoError .out s).rspStatus = .outErr := rfl
@[simp] theorem raiseIoError_out_rspData (s : State) : (raiseIoError .out s).rspData = 0 := rfl
@[simp] theorem raiseIoError_out_rspLen (s : State) : (raiseIoError .out s).rspLen = 0 := rfl
@[simp] theorem raiseIoError_out_cfg (s : State) : (raiseIoError .out s).cfg = s.cfg := rfl
@[simp] theorem raiseIoError_out_env (s : State) : (raiseIoError .out s).env = s.env := rfl
@[simp] theorem raiseIoError_out_drawn (s : State) : (raiseIoError .out s).drawn = s.drawn + 1 := rfl

/-! `resetWith` -/

@[simp] theorem resetWith_phase (c : Config) : (State.resetWith c).phase = .idle := rfl
@[simp] theorem resetWith_mode (c : Config) : (State.resetWith c).mode = .E := rfl
@[simp] theorem resetWith_buf (c : Config) : (State.resetWith c).buf = noValue := rfl
@[simp] theorem resetWith_cnt (c : Config) : (State.resetWith c).cnt = 0 := rfl
@[simp] theorem resetWith_obuf (c : Config) : (State.resetWith c).obuf = noValue := rfl
@[simp] theorem resetWith_olen (c : Config) : (State.resetWith c).olen = 0 := rfl
@[simp] theorem resetWith_oidx (c : Config) : (State.resetWith c).oidx = 0 := rfl
@[simp] theorem resetWith_final (c : Config) : (State.resetWith c).final = false := rfl
@[simp] theorem resetWith_rspStatus (c : Config) : (State.resetWith c).rspStatus = .ok := rfl
@[simp] theorem resetWith_rspData (c : Config) : (State.resetWith c).rspData = 0 := rfl
@[simp] theorem resetWith_rspLen (c : Config) : (State.resetWith c).rspLen = 0 := rfl
@[simp] theorem resetWith_cfg (c : Config) : (State.resetWith c).cfg = c := rfl
@[simp] theorem resetWith_env (c : Config) : (State.resetWith c).env = Env.quiet := rfl
@[simp] theorem resetWith_drawn (c : Config) : (State.resetWith c).drawn = 0 := rfl

end Sys2Proof.Machine
end

