-- ==== Sys2Proof/Laws/Ops.lean ====
section
/-! SUPPORT. One lemma per shared operation that says what it can do; proofs cite these instead of unfolding. -/

namespace Sys2Proof.Machine

theorem onAccept_idle {s : State} (h : s.phase = .idle) (f : State → State) : onAccept f s = .next (f s) := by
  simp [onAccept, h]

theorem onAccept_busy {s : State} (h : s.phase ≠ .idle) (f : State → State) : onAccept f s = .next s := by
  simp [onAccept, h]

theorem inRead_eq_none {s : State} : inRead s = none ↔ s.env.input = [] := by
  unfold inRead; split <;> simp_all

theorem inRead_eq_some {s s' : State} {t : Token} (h : inRead s = some (t, s')) :
    ∃ rest, s.env.input = t :: rest ∧ s' = withInput rest s := by
  unfold inRead at h
  split at h
  · cases h
  · rename_i t' rest hi
    cases h
    exact ⟨rest, hi, rfl⟩

theorem outWrite_eq_ok {s s' : State} {b : Byte} (h : outWrite b s = some (.ok, s')) :
    ∃ rest, s.env.answers = .ok :: rest ∧ s' = wrote b (withAnswers rest s) := by
  unfold outWrite at h
  split at h
  · cases h
  · rename_i rest hi; cases h; exact ⟨rest, hi, rfl⟩
  · cases h

theorem outWrite_eq_err {s s' : State} {b : Byte} (h : outWrite b s = some (.err, s')) :
    ∃ rest, s.env.answers = .err :: rest ∧ s' = withAnswers rest s := by
  unfold outWrite at h
  split at h
  · cases h
  · cases h
  · rename_i rest hi; cases h; exact ⟨rest, hi, rfl⟩

theorem outWrite_eq_none {s : State} {b : Byte} : outWrite b s = none ↔ s.env.answers = [] := by
  unfold outWrite; split <;> simp_all

theorem valuesOf_map_some (bs : List Byte) : valuesOf (bs.map some) = some bs := by
  induction bs with
  | nil => rfl
  | cons b bs ih => simp [valuesOf, ih]

theorem valuesOf_eq_some {l : List (Option Byte)} {bs : List Byte} : valuesOf l = some bs ↔ l = bs.map some := by
  constructor
  · induction l generalizing bs with
    | nil => intro h; cases h; rfl
    | cons o l ih =>
      cases o with
      | none => intro h; cases h
      | some b =>
        intro h
        simp only [valuesOf, Option.map_eq_some_iff] at h
        obtain ⟨bs', hb, rfl⟩ := h
        simp [ih hb]
  · rintro rfl; exact valuesOf_map_some bs

/-- A list of entries that all hold values has its bytes. -/
theorem valuesOf_isSome {l : List (Option Byte)} (h : ∀ o ∈ l, o.isSome = true) : ∃ bs, valuesOf l = some bs := by
  induction l with
  | nil => exact ⟨[], rfl⟩
  | cons o l ih =>
    obtain ⟨bs, hb⟩ := ih fun o ho => h o (List.mem_cons_of_mem _ ho)
    have ho := h o List.mem_cons_self
    cases o with
    | none => cases ho
    | some b => exact ⟨b :: bs, by simp [valuesOf, hb]⟩

@[simp] theorem noValue_get (j : Fin 8) : noValue[j] = none := by simp [noValue]

theorem oidxAfterError_le (s : State) : (oidxAfterError s).val ≤ (olenAfterError s).val :=
  min_le_right (α := Fin 9) _ _

end Sys2Proof.Machine
end

