-- ==== Sys2Proof/Laws/PerInstr.lean ====
section
/-! SUPPORT. Statements about every command as syntax, one lemma per constructor. Family `OpField`: the encoded word holds the opcode
of the command's row (R73) in `CMD[7:4]` and its LEN in `CMD[3:0]` (R71). -/

namespace Sys2Proof.Laws.OpField

/-- The opcode of the command's row (R73). -/
def opcode : Instr → BitVec 4
  | .enc _ => 0x1
  | .dec _ => 0x2
  | .frnd _ => 0x3
  | .pack _ => 0x4
  | .unpack _ => 0x5
  | .ustrip _ => 0x6
  | .echunk _ => 0x7
  | .dchunk _ => 0x8
  | .ecbe => 0x9
  | .ecbd => 0xA

/-- The LEN of the command (R73): its number of bytes for PACK and ECHUNK, else 0. -/
def len : Instr → Nat
  | .enc _ => 0
  | .dec _ => 0
  | .frnd _ => 0
  | .pack b => b.length
  | .unpack _ => 0
  | .ustrip _ => 0
  | .echunk b => b.length
  | .dchunk _ => 0
  | .ecbe => 0
  | .ecbd => 0

/-- The encoded word of a well-formed command holds its opcode and its LEN. -/
def Statement (i : Instr) : Prop :=
  i.wellFormed = true → opField (encode i).cmd = opcode i ∧ (lenField (encode i).cmd).toNat = len i

theorem fields_of_len (base : BitVec 8) (hb : base = 0x40 ∨ base = 0x70) (n : Nat) (h : n ≤ 8) :
    opField (base + BitVec.ofNat 8 n) = opField base ∧ (lenField (base + BitVec.ofNat 8 n)).toNat = n := by
  rcases hb with rfl | rfl <;> interval_cases n <;> decide

theorem fields_of_zero (w : BitVec 8) (h : lenField w = 0) : opField w = opField w ∧ (lenField w).toNat = 0 := by
  simp [h]

theorem enc (x : Block) : Statement (.enc x) := fun _ => fields_of_zero 0x10 (by decide)
theorem dec (x : Block) : Statement (.dec x) := fun _ => fields_of_zero 0x20 (by decide)
theorem frnd (w : Word) : Statement (.frnd w) := fun _ => fields_of_zero 0x30 (by decide)
theorem pack (b : List Byte) : Statement (.pack b) := fun h =>
  fields_of_len 0x40 (.inl rfl) b.length (by simpa [Instr.wellFormed] using h)
theorem unpack (x : Block) : Statement (.unpack x) := fun _ => fields_of_zero 0x50 (by decide)
theorem ustrip (x : Block) : Statement (.ustrip x) := fun _ => fields_of_zero 0x60 (by decide)
theorem echunk (b : List Byte) : Statement (.echunk b) := fun h =>
  fields_of_len 0x70 (.inr rfl) b.length (by simpa [Instr.wellFormed] using h)
theorem dchunk (v : Block) : Statement (.dchunk v) := fun _ => fields_of_zero 0x80 (by decide)
theorem ecbe : Statement .ecbe := fun _ => fields_of_zero 0x90 (by decide)
theorem ecbd : Statement .ecbd := fun _ => fields_of_zero 0xA0 (by decide)

end Sys2Proof.Laws.OpField
end

