-- ==== Sys2Proof/Laws/Run.lean ====
section
/-! SUPPORT. What the operations of a stream run can do. -/

namespace Sys2Proof.Machine

theorem endBlock_final {s : State} (h : s.final = true) : endBlock s = respond .ok 0 0 s := by simp [endBlock, h]

theorem endBlock_more {s : State} (h : s.final = false) : endBlock s = { s with phase := .run } := by
  simp [endBlock, h]

@[simp] theorem endBlock_cfg (s : State) : (endBlock s).cfg = s.cfg := by unfold endBlock; split <;> rfl
@[simp] theorem endBlock_env (s : State) : (endBlock s).env = s.env := by unfold endBlock; split <;> rfl
@[simp] theorem endBlock_mode (s : State) : (endBlock s).mode = s.mode := by unfold endBlock; split <;> rfl
@[simp] theorem endBlock_buf (s : State) : (endBlock s).buf = s.buf := by unfold endBlock; split <;> rfl
@[simp] theorem endBlock_cnt (s : State) : (endBlock s).cnt = s.cnt := by unfold endBlock; split <;> rfl
@[simp] theorem endBlock_obuf (s : State) : (endBlock s).obuf = s.obuf := by unfold endBlock; split <;> rfl
@[simp] theorem endBlock_olen (s : State) : (endBlock s).olen = s.olen := by unfold endBlock; split <;> rfl
@[simp] theorem endBlock_oidx (s : State) : (endBlock s).oidx = s.oidx := by unfold endBlock; split <;> rfl
@[simp] theorem endBlock_isFinal (s : State) : (endBlock s).final = s.final := by unfold endBlock; split <;> rfl
@[simp] theorem endBlock_drawn (s : State) : (endBlock s).drawn = s.drawn := by unfold endBlock; split <;> rfl

@[simp] theorem afterLoad_cfg (s : State) : (afterLoad s).cfg = s.cfg := by unfold afterLoad; split <;> simp
@[simp] theorem afterLoad_env (s : State) : (afterLoad s).env = s.env := by unfold afterLoad; split <;> simp
@[simp] theorem afterLoad_mode (s : State) : (afterLoad s).mode = s.mode := by unfold afterLoad; split <;> simp
@[simp] theorem afterLoad_buf (s : State) : (afterLoad s).buf = s.buf := by unfold afterLoad; split <;> simp
@[simp] theorem afterLoad_cnt (s : State) : (afterLoad s).cnt = s.cnt := by unfold afterLoad; split <;> simp
@[simp] theorem afterLoad_obuf (s : State) : (afterLoad s).obuf = s.obuf := by unfold afterLoad; split <;> simp
@[simp] theorem afterLoad_olen (s : State) : (afterLoad s).olen = s.olen := by unfold afterLoad; split <;> simp
@[simp] theorem afterLoad_oidx (s : State) : (afterLoad s).oidx = s.oidx := by unfold afterLoad; split <;> simp
@[simp] theorem afterLoad_isFinal (s : State) : (afterLoad s).final = s.final := by unfold afterLoad; split <;> simp
@[simp] theorem afterLoad_drawn (s : State) : (afterLoad s).drawn = s.drawn := by unfold afterLoad; split <;> simp

theorem processBlock_of_values {n : Nat} {s : State} {chunk : List Byte}
    (h : s.buf.toList.take n = chunk.map some) :
    processBlock n s = .next (afterLoad (loadBlock (blockValue s chunk) s)) := by
  simp [processBlock, valuesOf_eq_some.mpr h]

theorem processBlock_next {n : Nat} {s t : State} (h : processBlock n s = .next t) :
    ∃ chunk : List Byte, s.buf.toList.take n = chunk.map some ∧ t = afterLoad (loadBlock (blockValue s chunk) s) := by
  unfold processBlock at h
  split at h
  · cases h
  · rename_i chunk hc
    cases h
    exact ⟨chunk, valuesOf_eq_some.mp hc, rfl⟩

/-- The count after a byte has been stored. -/
theorem pushByte_cnt_val {s : State} (h : s.cnt.val < 8) (b : Byte) : (pushByte b s).cnt.val = s.cnt.val + 1 := by
  simp only [pushByte_cnt, Fin.val_ofNat]; omega

/-- The buffer after a byte has been stored: that byte at `cnt`, every other entry as before. -/
theorem pushByte_buf_get (b : Byte) (s : State) (j : Fin 8) :
    (pushByte b s).buf[j] = if j.val = s.cnt.val then some b else s.buf[j] := by
  simp only [pushByte_buf, Fin.getElem_fin, Vector.getElem_setIfInBounds, eq_comm]

theorem takeByte_next {b : Byte} {s t : State} (h : takeByte b s = .next t) :
    (s.cnt.val < 7 ∧ t = pushByte b s) ∨
      (s.cnt.val = 7 ∧ ∃ chunk : List Byte, (pushByte b s).buf.toList.take 8 = chunk.map some ∧
        t = afterLoad (loadBlock (blockValue (pushByte b s) chunk) (pushByte b s))) := by
  unfold takeByte at h
  split at h
  · rename_i hc
    have hv := pushByte_cnt_val hc b
    dsimp only at h
    split at h
    · rename_i h8
      have : (pushByte b s).cnt.val = 8 := congrArg Fin.val h8
      exact .inr ⟨by omega, processBlock_next h⟩
    · rename_i h8
      cases h
      have : (pushByte b s).cnt.val ≠ 8 := fun he => h8 (Fin.ext he)
      exact .inl ⟨by omega, rfl⟩
  · cases h

theorem takeEos_next {s t : State} (h : takeEos s = .next t) :
    (s.cnt = 0 ∧ t = respond .ok 0 0 s) ∨
      (s.cnt.val ≠ 0 ∧ s.cnt.val < 8 ∧ ∃ chunk : List Byte, (markFinal s).buf.toList.take s.cnt.val = chunk.map some ∧
        t = afterLoad (loadBlock (blockValue (markFinal s) chunk) (markFinal s))) := by
  unfold takeEos at h
  split at h
  · rename_i hc; cases h; exact .inl ⟨hc, rfl⟩
  · rename_i hc
    split at h
    · rename_i h8
      exact .inr ⟨fun h0 => hc (Fin.ext h0), h8, processBlock_next h⟩
    · cases h

@[simp] theorem loadBlock_obuf_get (y : Block) (s : State) (j : Fin 8) :
    (loadBlock y s).obuf[j] = some (byteOf y j.val) := by simp [loadBlock]

/-- EndBlock either reads on or ends the run with OK. -/
theorem endBlock_cases (s : State) :
    (endBlock s = { s with phase := .run } ∧ s.final = false) ∨ (endBlock s = respond .ok 0 0 s ∧ s.final = true) := by
  by_cases h : s.final = true
  · exact .inr ⟨endBlock_final h, h⟩
  · have h : s.final = false := by simpa using h
    exact .inl ⟨endBlock_more h, h⟩

/-- A block with nothing to emit is one of a decrypt run. -/
theorem mode_of_emitLen_eq_zero {m : Mode} {y : Block} (h : emitLen m y = 0) : m = .D := by
  cases m <;> simp_all [emitLen]

theorem emitOk_last {n : Fin 9} {s : State} (h : n = s.olen) : emitOk n s = endBlock (withOidx n s) := by
  simp [emitOk, h]

theorem emitOk_more {n : Fin 9} {s : State} (h : n ≠ s.olen) : emitOk n s = withOidx n s := by
  simp [emitOk, h]

@[simp] theorem emitOk_env (n : Fin 9) (s : State) : (emitOk n s).env = s.env := by
  unfold emitOk; dsimp only; split <;> simp
@[simp] theorem emitOk_cfg (n : Fin 9) (s : State) : (emitOk n s).cfg = s.cfg := by
  unfold emitOk; dsimp only; split <;> simp

end Sys2Proof.Machine
end

