-- ==== Sys2Proof/Laws/Step.lean ====
section
/-! SUPPORT. What one step can do, said once: `step_moved` is the inversion of `step`, and every fact about all steps is a case
analysis of `Moved`. -/

namespace Sys2Proof.Machine

/-- The moves of one step from s, each with what enables it. `u` is the state after `rst`'s schedule has moved on. -/
inductive Moved (s : State) : State → Prop where
  | reset (h : rstAsserted s = true) : Moved s (resetBlock (passRst s))
  | wait (h : rstAsserted s = false) : Moved s (passRst s)
  | answered (h : rstAsserted s = false) (hp : s.phase = .idle) (c : Command) (rest : List Command)
      (hc : s.env.cmds = c :: rest) (st : Status) (d : Block) (n : BitVec 4) (hst : st = .ok ∨ st = .advisory)
      (hn : n.toNat ≤ 8) : Moved s (respond st d n (withCmds rest (passRst s)))
  | started (h : rstAsserted s = false) (hp : s.phase = .idle) (c : Command) (rest : List Command)
      (hc : s.env.cmds = c :: rest) (m : Mode) : Moved s (startRun m (withCmds rest (passRst s)))
  | consumed (h : rstAsserted s = false) (hp : s.phase = .resp) (n : Nat) (hn : s.env.takes = n + 1) :
      Moved s (consumeResponse (withTakes n (passRst s)))
  | gotByte (h : rstAsserted s = false) (hp : s.phase = .run) (b : Byte) (rest : List Token)
      (hi : s.env.input = .byte b :: rest) (hc : s.cnt.val < 7) :
      Moved s (pushByte b (withInput rest (passRst s)))
  | gotEighth (h : rstAsserted s = false) (hp : s.phase = .run) (b : Byte) (rest : List Token)
      (hi : s.env.input = .byte b :: rest) (hc : s.cnt.val = 7) (u : State)
      (hu : u = pushByte b (withInput rest (passRst s))) (chunk : List Byte)
      (hb : u.buf.toList.take 8 = chunk.map some) : Moved s (afterLoad (loadBlock (blockValue u chunk) u))
  | gotLastEos (h : rstAsserted s = false) (hp : s.phase = .run) (rest : List Token)
      (hi : s.env.input = .eos :: rest) (hc : s.cnt = 0) : Moved s (respond .ok 0 0 (withInput rest (passRst s)))
  | gotEosInChunk (h : rstAsserted s = false) (hp : s.phase = .run) (rest : List Token)
      (hi : s.env.input = .eos :: rest) (hc0 : s.cnt.val ≠ 0) (hc : s.cnt.val < 8) (u : State)
      (hu : u = markFinal (withInput rest (passRst s))) (chunk : List Byte)
      (hb : u.buf.toList.take s.cnt.val = chunk.map some) : Moved s (afterLoad (loadBlock (blockValue u chunk) u))
  | gotErr (h : rstAsserted s = false) (hp : s.phase = .run) (rest : List Token)
      (hi : s.env.input = .err :: rest) : Moved s (raiseIoError .inp (withInput rest (passRst s)))
  | emitted (h : rstAsserted s = false) (hp : s.phase = .emit) (ho : s.oidx.val < s.olen.val) (b : Byte)
      (hb : s.obuf[s.oidx.val] = some b) (rest : List Answer) (ha : s.env.answers = .ok :: rest) :
      Moved s (emitOk (Fin.ofNat 9 (s.oidx.val + 1)) (wrote b (withAnswers rest (passRst s))))
  | emitFailed (h : rstAsserted s = false) (hp : s.phase = .emit) (ho : s.oidx.val < s.olen.val) (b : Byte)
      (hb : s.obuf[s.oidx.val] = some b) (rest : List Answer) (ha : s.env.answers = .err :: rest) :
      Moved s (raiseIoError .out (withAnswers rest (passRst s)))

theorem stepRun_moved {s t : State} (h : rstAsserted s = false) (hp : s.phase = .run)
    (hs : stepRun (passRst s) = .next t) : Moved s t := by
  unfold stepRun at hs
  split at hs
  · cases hs; exact .wait h
  · rename_i tok s' hr
    obtain ⟨rest, hi, rfl⟩ := inRead_eq_some hr
    replace hi : s.env.input = tok :: rest := hi
    cases tok with
    | byte b =>
      obtain ⟨h7, rfl⟩ | ⟨h7, chunk, hb, rfl⟩ := takeByte_next hs
      · exact .gotByte h hp b rest hi h7
      · exact .gotEighth h hp b rest hi h7 _ rfl chunk hb
    | eos =>
      obtain ⟨hc, rfl⟩ | ⟨hc, h8, chunk, hb, rfl⟩ := takeEos_next hs
      · exact .gotLastEos h hp rest hi hc
      · exact .gotEosInChunk h hp rest hi hc h8 _ rfl chunk hb
    | err => cases hs; exact .gotErr h hp rest hi

theorem stepEmit_moved {s t : State} (h : rstAsserted s = false) (hp : s.phase = .emit)
    (hs : stepEmit (passRst s) = .next t) : Moved s t := by
  unfold stepEmit at hs
  split at hs
  · rename_i ho
    split at hs
    · cases hs
    · rename_i b hb
      split at hs
      · cases hs; exact .wait h
      · rename_i s' hw
        obtain ⟨rest, ha, rfl⟩ := outWrite_eq_ok hw
        cases hs
        exact .emitted h hp ho b hb rest ha
      · rename_i s' hw
        obtain ⟨rest, ha, rfl⟩ := outWrite_eq_err hw
        cases hs
        exact .emitFailed h hp ho b hb rest ha
  · cases hs; exact .wait h

theorem keptLen_code_le (x : Block) : (BitVec.ofNat 4 (keptLen x).val).toNat ≤ 8 := by
  simp only [keptLen_val, BitVec.toNat_ofNat]; omega

theorem exec_moved {s t : State} (h : rstAsserted s = false) (hp : s.phase = .idle) {c : Command} {rest : List Command}
    (hc : s.env.cmds = c :: rest) {i : Instr} (hs : exec i (withCmds rest (passRst s)) = .next t) : Moved s t := by
  have hi : (withCmds rest (passRst s)).phase = .idle := hp
  cases i <;>
    simp only [exec, execEnc, execDec, execFrnd, execPack, execUnpack, execUstrip, execEchunk, execDchunk, execEcbe,
      execEcbd, onAccept_idle hi, Host.Outcome.next.injEq] at hs <;> subst hs
  case ecbe => exact .started h hp c rest hc .E
  case ecbd => exact .started h hp c rest hc .D
  all_goals
    exact .answered h hp c rest hc _ _ _ (.inl rfl) (by first | exact keptLen_code_le _ | decide)

/-- What one step can do. -/
theorem step_moved {s t : State} (hs : step s = .next t) : Moved s t := by
  unfold step at hs
  split at hs
  · rename_i h; cases hs; exact .reset h
  · rename_i h
    replace h : rstAsserted s = false := by simpa using h
    unfold stepPhase at hs
    split at hs
    · rename_i hp
      replace hp : s.phase = .idle := hp
      unfold stepIdle at hs
      split at hs
      · cases hs; exact .wait h
      · rename_i c rest hc
        replace hc : s.env.cmds = c :: rest := hc
        unfold acceptCommand at hs
        split at hs
        · exact exec_moved h hp hc hs
        · rw [onAccept_idle (show (withCmds rest (passRst s)).phase = .idle from hp)] at hs
          cases hs
          exact .answered h hp c rest hc _ _ _ (.inr rfl) (by decide)
    · rename_i hp
      replace hp : s.phase = .resp := hp
      unfold stepResp at hs
      split at hs
      · cases hs; exact .wait h
      · rename_i n hn
        cases hs
        exact .consumed h hp n hn
    · rename_i hp; exact stepRun_moved h hp hs
    · rename_i hp; exact stepEmit_moved h hp hs

/-! Runs of several steps. -/

theorem coreRun_succ (M : Host.Core) (k : Nat) (s : M.State) :
    M.run (k + 1) s =
      match M.step s with
      | .next s' => M.run k s'
      | .fault r => .fault r
      | .refused r => .refused r := rfl

theorem run_zero (s : State) : core.run 0 s = .next s := rfl

theorem coreRun_succ_of_next {M : Host.Core} {s s' : M.State} (h : M.step s = .next s') (k : Nat) :
    M.run (k + 1) s = M.run k s' := by rw [coreRun_succ, h]

theorem coreRun_succ_next {M : Host.Core} {k : Nat} {s t : M.State} (h : M.run (k + 1) s = .next t) :
    ∃ s', M.step s = .next s' ∧ M.run k s' = .next t := by
  rw [coreRun_succ] at h
  split at h
  · exact ⟨_, ‹_›, h⟩
  · cases h
  · cases h

theorem run_succ_of_next {s s' : State} (h : step s = .next s') (k : Nat) : core.run (k + 1) s = core.run k s' :=
  coreRun_succ_of_next (M := core) h k

theorem run_succ_next {k : Nat} {s t : State} (h : core.run (k + 1) s = .next t) :
    ∃ s', step s = .next s' ∧ core.run k s' = .next t :=
  coreRun_succ_next (M := core) h

/-- Steps may be run in two parts. -/
theorem run_add {j k : Nat} {s u t : State} (hj : core.run j s = .next u) (hk : core.run k u = .next t) :
    core.run (j + k) s = .next t := by
  induction j generalizing s with
  | zero => cases hj; rw [Nat.zero_add]; exact hk
  | succ j ih =>
    obtain ⟨s', hs, hj⟩ := run_succ_next hj
    rw [Nat.succ_add]
    exact (run_succ_of_next hs (j + k)).trans (ih hj)

end Sys2Proof.Machine
end

