-- ==== Sys2Proof/Tests/Slice0.lean ====
section
/-! SUPPORT. The model's own tests. Expected values are those of 95_test_vectors.md (cited as V-... or by section) or are written out
by hand from the rules; then, for every obligation with hypotheses, a witness that meets them. -/

namespace Sys2Proof.Tests
open Sys2Proof.Machine Sys2Proof.Claim

/-! ## Helpers -/

/-- `CFG_Z` of 95_test_vectors.md section 1. -/
def cfgZ : Config := ⟨Vector.replicate 18 0, Config.sDefault, Vector.replicate 14 0, .zextHigh⟩

/-- An idle block with parameters c. -/
def idleAt (c : Config) : State := State.resetWith c

/-- The response that a step's next state holds in RESP. -/
def answerOf : Host.Outcome State Fault Refusal → Option Response
  | .next t => if t.phase = .resp then some ⟨t.rspStatus, t.rspData, t.rspLen⟩ else none
  | .fault _ => none
  | .refused _ => none

/-- A fact about the next state of a step. -/
def after (o : Host.Outcome State Fault Refusal) (p : State → Bool) : Bool :=
  match o with
  | .next t => p t
  | .fault _ => false
  | .refused _ => false

/-- A block in RUN under CFG_B in mode m, holding the bytes `held` of a chunk, with the tokens `toks` on offer. -/
def running (m : Mode) (held : List Byte) (toks : List Token) : State :=
  { idleAt cfgB with
    phase := .run
    mode := m
    buf := Vector.ofFn fun j : Fin 8 => held[j.val]?
    cnt := Fin.ofNat 9 held.length
    env := { Env.quiet with input := toks } }

/-- A block in EMIT under CFG_B in mode m, with the block y of n bytes to emit, i of them emitted, and the answers `ans` to come. -/
def emitting (m : Mode) (y : Block) (n i : Fin 9) (fin : Bool) (ans : List Answer) : State :=
  { idleAt cfgB with
    phase := .emit
    mode := m
    obuf := Vector.ofFn fun j : Fin 8 => some (byteOf y j.val)
    olen := n
    oidx := i
    final := fin
    env := { Env.quiet with answers := ans } }

/-- An idle block under CFG_B with the commands cs on offer. -/
def offering (cs : List Command) : State := { idleAt cfgB with env := { Env.quiet with cmds := cs } }

/-- A block in RESP under CFG_B, with the response `OK, 7, 8` and n consumptions to come. -/
def responding (n : Nat) : State :=
  { idleAt cfgB with phase := .resp, rspData := 7, rspLen := 8, env := { Env.quiet with takes := n } }

/-- The same state at a step with rst asserted. -/
def reseting (s : State) : State := { s with env := { s.env with rst := [true] } }

/-- Seven bytes `41..47`. -/
def seven : List Byte := [0x41, 0x42, 0x43, 0x44, 0x45, 0x46, 0x47]

/-! ## Well-formedness (smoke) -/

theorem test_wf_pack_nine_bytes_refused : Instr.wellFormed (.pack (List.replicate 9 0x41)) = false := by decide
theorem test_wf_echunk_nine_bytes_refused : Instr.wellFormed (.echunk (List.replicate 9 0x41)) = false := by decide
theorem test_wf_pack_eight_bytes : Instr.wellFormed (.pack (List.replicate 8 0x41)) = true := by decide

/-! ## Decoding: words written out from R71 and R73, `CMD[7:4]` then `CMD[3:0]` -/

theorem test_decode_enc : decode ⟨0b0001_0000, 0x0123456789ABCDEF⟩ = .ok (.enc 0x0123456789ABCDEF) := by decide
theorem test_decode_dec : decode ⟨0b0010_0000, 0x89A9674501221032⟩ = .ok (.dec 0x89A9674501221032) := by decide
theorem test_decode_frnd : decode ⟨0b0011_0000, 0xFFFFFFFF04076C48⟩ = .ok (.frnd 0x04076C48) := by decide
theorem test_decode_pack : decode ⟨0b0100_0011, 0x414243FFFFFFFFFF⟩ = .ok (.pack [0x41, 0x42, 0x43]) := by decide
theorem test_decode_pack_zero : decode ⟨0b0100_0000, 0xFFFFFFFFFFFFFFFF⟩ = .ok (.pack []) := by decide
theorem test_decode_unpack : decode ⟨0b0101_0000, 0x4142430000000000⟩ = .ok (.unpack 0x4142430000000000) := by decide
theorem test_decode_ustrip : decode ⟨0b0110_0000, 0x4100420000000000⟩ = .ok (.ustrip 0x4100420000000000) := by decide
theorem test_decode_echunk :
    decode ⟨0b0111_1000, 0x4142434445464748⟩ = .ok (.echunk [0x41, 0x42, 0x43, 0x44, 0x45, 0x46, 0x47, 0x48]) := by decide
theorem test_decode_dchunk : decode ⟨0b1000_0000, 0x0002AAAA41431655⟩ = .ok (.dchunk 0x0002AAAA41431655) := by decide
theorem test_decode_ecbe : decode ⟨0b1001_0000, 0xFFFFFFFFFFFFFFFF⟩ = .ok .ecbe := by decide
theorem test_decode_ecbd : decode ⟨0b1010_0000, 0⟩ = .ok .ecbd := by decide
/-- Section 4.8. -/
theorem test_decode_unmatched :
    [0x00, 0x0F, 0x11, 0x3F, 0x49, 0x4F, 0x79, 0x91, 0xB0, 0xFF].all
      (fun w => decode ⟨w, 0⟩ matches .error _) = true := by decide
theorem test_encode_pack : encode (.pack [0x41, 0x42, 0x43]) = ⟨0x43, 0x4142430000000000⟩ := by decide

/-! ## A table word runs as the first command after reset -/

theorem test_fetch_ustrip :
    answerOf (step (State.reset.withFetchWord 8 0x60)) = some ⟨.ok, 0, 0⟩ := by decide +kernel
theorem test_fetch_ecbd : after (step (State.reset.withFetchWord 8 0xA0)) (fun t => t.phase = .run && t.mode = .D) = true := by
  decide +kernel
theorem test_fetch_unmatched : answerOf (step (State.reset.withFetchWord 8 0x4F)) = some ⟨.advisory, 0, 0⟩ := by
  decide +kernel
/-- DATA counts on from bit 8. -/
theorem test_table_word_data : decodeTableWord 72 0x414243444546474860 = some (.ustrip 0x4142434445464748) := by decide

/-! ## The commands -/

/-- Section 4.2. -/
theorem test_enc_cfgB :
    answerOf (exec (.enc 0x8000000000000001) (idleAt cfgB)) = some ⟨.ok, 0x0002AAAB80015555, 8⟩ := by decide +kernel
/-- Section 4.2: DEC does not strip. -/
theorem test_dec_cfgB :
    answerOf (exec (.dec 0x0002AAAA41431655) (idleAt cfgB)) = some ⟨.ok, 0x4142430000000000, 8⟩ := by decide +kernel
/-- Every S-box entry all ones: `((-1 + -1) ^ -1) + -1 = (-2 ^ -1) + -1 = 1 + -1 = 0`, both additions wrapping (R101). -/
theorem test_frnd_wraps :
    answerOf (exec (.frnd 0xDEADBEEF) (idleAt { cfgZ with S := Vector.replicate 4 (Vector.replicate 256 0xFFFFFFFF) })) =
      some ⟨.ok, 0, 8⟩ := by decide +kernel
/-- Section 4.1. -/
theorem test_frnd_cfgS : answerOf (exec (.frnd 0) (idleAt cfgS)) = some ⟨.ok, 0x04076C48, 8⟩ := by decide +kernel
/-- Section 4.3. -/
theorem test_pack_keeps_leading_zeros :
    answerOf (exec (.pack [0x00, 0x00, 0xFF]) (idleAt cfgB)) = some ⟨.ok, 0x0000FF0000000000, 8⟩ := by decide +kernel
theorem test_unpack_zero : answerOf (exec (.unpack 0) (idleAt cfgB)) = some ⟨.ok, 0, 8⟩ := by decide +kernel
theorem test_ustrip_inner_zero :
    answerOf (exec (.ustrip 0x4100420000000000) (idleAt cfgB)) = some ⟨.ok, 0x4100420000000000, 3⟩ := by decide +kernel
theorem test_ustrip_leading_zeros : answerOf (exec (.ustrip 1) (idleAt cfgB)) = some ⟨.ok, 1, 8⟩ := by decide +kernel
/-- Section 4.4. -/
theorem test_echunk_pads :
    answerOf (exec (.echunk [0x41, 0x42, 0x43]) (idleAt cfgB)) = some ⟨.ok, 0x0002AAAA41431655, 8⟩ := by decide +kernel
theorem test_echunk_none : answerOf (exec (.echunk []) (idleAt cfgB)) = some ⟨.ok, 0x0002AAAA00015555, 8⟩ := by
  decide +kernel
theorem test_dchunk_strips :
    answerOf (exec (.dchunk 0x0002AAAA41431655) (idleAt cfgB)) = some ⟨.ok, 0x4142430000000000, 3⟩ := by decide +kernel
theorem test_dchunk_zero_block :
    answerOf (exec (.dchunk 0x0002AAAA00015555) (idleAt cfgB)) = some ⟨.ok, 0, 0⟩ := by decide +kernel
theorem test_ecbe_starts :
    after (exec .ecbe { idleAt cfgB with mode := .D, cnt := 3, final := true })
      (fun t => t.phase = .run && t.mode = .E && t.cnt = 0 && !t.final) = true := by decide +kernel
theorem test_ecbd_starts :
    after (exec .ecbd (idleAt cfgB)) (fun t => t.phase = .run && t.mode = .D && t.olen = 0 && t.oidx = 0) = true := by
  decide +kernel
/-- Section 3.1: round 0 of the encryption of 0 under CFG_S, swap included. -/
theorem test_round_zero : feistelRound cfgS ⟨0, 0⟩ 0 = ⟨0x3C088D74, 1⟩ := by decide +kernel

/-! ## Steps of a run -/

/-- Section 5, P2, step 2: the 8th byte loads `45 44 ED E2 41 43 16 11`. -/
theorem test_eighth_byte :
    after (step (running .E seven [.byte 0x48]))
      (fun t => t.phase = .emit && t.obuf.toList = (be8 0x4544EDE241431611).map some && t.olen = 8 && t.cnt = 0) = true := by
  decide +kernel
/-- V-ECB-10, decrypted: a zero block writes nothing and the run reads on. -/
theorem test_zero_block_not_emitted :
    after (step (running .D [0x00, 0x02, 0xAA, 0xAA, 0x00, 0x01, 0x55] [.byte 0x55]))
      (fun t => t.phase = .run && t.olen = 0 && t.cnt = 0) = true := by decide +kernel
/-- V-SHORT-1, ZEXT_HIGH: `00 13 61 03 00 02 AA AA`. -/
theorem test_short_chunk :
    after (step (running .D [0x12, 0x34, 0x56] [.eos]))
      (fun t => t.phase = .emit && t.final && t.obuf.toList = (be8 0x001361030002AAAA).map some) = true := by decide +kernel
/-- V-ERR-4. -/
theorem test_input_error : answerOf (step (running .E [] [.err])) = some ⟨.inErr, 0, 0⟩ := by decide +kernel
/-- V-ERR-2's last step: byte 11 of the output is the fourth of block 2. -/
theorem test_output_error :
    answerOf (step (emitting .E 0x4D4CE5FA494B1E19 8 3 false [.err])) = some ⟨.outErr, 0, 0⟩ := by decide +kernel
theorem test_output_error_writes_nothing :
    after (step (emitting .E 0x4D4CE5FA494B1E19 8 3 false [.err])) (fun t => t.env.output = []) = true := by decide +kernel
/-- V-RST-1: rst while a byte is on offer. -/
theorem test_reset_in_emit :
    after (step (reseting (emitting .E 0x0002AAAA41015555 8 3 true [.ok])))
      (fun t => t.phase = .idle && t.env.output = [] && t.env.answers = [.ok] && cmdReady t) = true := by decide +kernel
theorem test_output_of_a_run :
    ecbdOutput cfgB (ecbeOutput cfgB (seven ++ [0x00, 0x49])) = seven ++ [0x49] := by decide +kernel

/-! ## Assembler text (R78, R79) -/

theorem test_asm_pack :
    readLine ['P', 'A', 'C', 'K', ' ', '3', ',', ' ', '0', 'x', '4', '1', ' ', ';', 'c'] = .line (.pack 3 0x41) := by decide
theorem test_asm_ecb : readLine ['E', 'C', 'B', ' ', 'd'] = .line (.ecb .D) := by decide
theorem test_asm_comment : readLine [' ', ';', 'E'] = .empty := by decide
theorem test_asm_advnop : AsmLine.advnop.assemble = some ⟨0x00, 0⟩ := by decide
theorem test_asm_packb :
    (AsmLine.packb [0x41, 0x42, 0x43]).assemble = some ⟨0x43, 0x4142430000000000⟩ := by decide

/-! ## Witnesses: states and operands that meet the hypotheses of the obligations -/

theorem zero_sboxes (P : Vector Word 18) (K : Vector Word 14) (m : ShortCtMode) : ZeroSBoxes ⟨P, Config.sDefault, K, m⟩ := by
  intro k j
  show (Config.sDefault[k])[j.toFin] = 0
  simp [Config.sDefault]

/-- R8, R9: the documented defaults (log 9). -/
theorem test_reset_defaults : ZeroSBoxes State.reset.cfg ∧ State.reset.cfg.shortCtMode = .zextHigh :=
  ⟨zero_sboxes _ _ _, rfl⟩
theorem test_wit_wellFormed_bounds :
    Instr.wellFormed (.pack []) = true ∧ Instr.wellFormed (.echunk (List.replicate 8 0xFF)) = true ∧
      Instr.wellFormed (.enc 0xFFFFFFFFFFFFFFFF) = true := by decide
theorem test_wit_decoded : decode ⟨0x41, 0xFFFFFFFFFFFFFFFF⟩ = .ok (.pack [0xFF]) ∧ keptBits 0x41 0xFFFFFFFFFFFFFFFF = 0xFF00000000000000 := by
  decide
theorem test_wit_reservedOp :
    (opField 0x0F = 0) ∧ 0xB ≤ (opField 0xB0).toNat ∧ 0xB ≤ (opField 0xFF).toNat := by decide
theorem test_wit_lenAboveEight :
    opField 0x49 = 0x4 ∧ opField 0x7F = 0x7 ∧ 9 ≤ (lenField 0x49).toNat ∧ 9 ≤ (lenField 0x7F).toNat := by decide
theorem test_wit_lenNotZero :
    opField 0x11 ≠ 0 ∧ (opField 0xAF).toNat < 0xB ∧ opField 0x11 ≠ 0x4 ∧ opField 0xAF ≠ 0x7 ∧ lenField 0x11 ≠ 0 ∧
      lenField 0xAF ≠ 0 := by decide
/-- The hypotheses of the ten result statements. -/
theorem test_wit_idle : State.reset.phase = .idle ∧ (idleAt cfgS).phase = .idle := ⟨rfl, rfl⟩
/-- The byte counts at the edges of the two LEN clauses. -/
theorem test_wit_len_clauses :
    decode ⟨0x40 + BitVec.ofNat 8 0, 5⟩ = .ok (.pack []) ∧ decode ⟨0x70 + BitVec.ofNat 8 8, 0⟩ = .ok (.echunk (List.replicate 8 0)) ∧
      decode ⟨0x40 + BitVec.ofNat 8 9, 0⟩ = .error .lenAboveEight ∧ decode ⟨0x70 + BitVec.ofNat 8 15, 0⟩ = .error .lenAboveEight := by
  decide
theorem test_wit_zero_boxes_and_P : ZeroSBoxes cfgZ ∧ cfgZ.P = Vector.replicate 18 0 ∧ ZeroSBoxes cfgB :=
  ⟨zero_sboxes _ _ _, rfl, zero_sboxes _ _ _⟩
theorem test_wit_zero_block : decrypt cfgB 0x0002AAAA00015555 = 0 := by decide +kernel
theorem test_wit_offers_unmatched : Offers (offering [⟨0x4F, 0x1234⟩]) ⟨0x4F, 0x1234⟩ [] ∧
    decode ⟨0x4F, 0x1234⟩ = .error .lenAboveEight := ⟨⟨rfl, rfl, rfl⟩, by decide⟩
theorem test_wit_offers_matched : Offers (offering [⟨0x48, 5⟩, ⟨0x10, 0⟩]) ⟨0x48, 5⟩ [⟨0x10, 0⟩] ∧
    decode ⟨0x48, 5⟩ = .ok (.pack [0, 0, 0, 0, 0, 0, 0, 5]) := ⟨⟨rfl, rfl, rfl⟩, by decide⟩
theorem test_wit_held :
    (running .E [] [.eos]).phase ≠ .idle ∧ (∃ t, step (running .E [] [.eos]) = .next t) ∧
      (reseting (responding 1)).phase ≠ .idle ∧ ∃ t, step (reseting (responding 1)) = .next t :=
  ⟨by decide, ⟨_, rfl⟩, by decide, ⟨_, rfl⟩⟩
theorem test_wit_consumes :
    (responding 1).phase = .resp ∧ rstAsserted (responding 1) = false ∧ (responding 1).env.takes = 0 + 1 ∧
      (idleAt cfgB).phase ≠ .resp := ⟨rfl, rfl, rfl, by decide⟩
theorem test_wit_ignored_bits :
    keptBits 0x30 0xFFFFFFFF00000001 = keptBits 0x30 1 ∧ keptBits 0x40 5 = keptBits 0x40 0 ∧
      keptBits 0x77 0x41424344454647FF = keptBits 0x77 0x4142434445464700 ∧ keptBits 0x90 9 = keptBits 0x90 0 ∧
      (idleAt cfgB).phase = .idle ∧ rstAsserted (idleAt cfgB) = false := by
  refine ⟨?_, ?_, ?_, ?_, rfl, rfl⟩ <;> decide
theorem test_wit_block_command :
    isBlockCommand (.dchunk 0) = true ∧ (idleAt cfgB).phase = .idle ∧ (offering [⟨0, 0⟩]).phase = .idle ∧
      (idleAt cfgB).cfg.P = (offering [⟨0, 0⟩]).cfg.P ∧ (idleAt cfgB).cfg.S = (offering [⟨0, 0⟩]).cfg.S :=
  ⟨rfl, rfl, rfl, rfl, rfl⟩

/-- The halves before round n of a transform of x over the rounds `is`. -/
def traceOf (c : Config) (is : List (Fin 18)) (x : Block) (n : Nat) : Halves :=
  (is.take n).foldl (feistelRound c) ⟨hi32 x, lo32 x⟩

theorem test_wit_encrypt_trace :
    (traceOf cfgB encRounds 5 0).l = hi32 5 ∧ (traceOf cfgB encRounds 5 0).r = lo32 5 ∧
    ∀ i : Fin 16,
      (traceOf cfgB encRounds 5 (i.val + 1)).l = (traceOf cfgB encRounds 5 i.val).r ^^^
        roundF cfgB (roundF cfgB ((traceOf cfgB encRounds 5 i.val).l ^^^ pEntry cfgB ⟨i.val, by omega⟩)) ∧
      (traceOf cfgB encRounds 5 (i.val + 1)).r = (traceOf cfgB encRounds 5 i.val).l ^^^ pEntry cfgB ⟨i.val, by omega⟩ := by
  decide +kernel
theorem test_wit_decrypt_trace :
    (traceOf cfgB decRounds 5 0).l = hi32 5 ∧ (traceOf cfgB decRounds 5 0).r = lo32 5 ∧
    ∀ i : Fin 16,
      (traceOf cfgB decRounds 5 (i.val + 1)).l = (traceOf cfgB decRounds 5 i.val).r ^^^
        roundF cfgB (roundF cfgB ((traceOf cfgB decRounds 5 i.val).l ^^^ pEntry cfgB ⟨17 - i.val, by omega⟩)) ∧
      (traceOf cfgB decRounds 5 (i.val + 1)).r = (traceOf cfgB decRounds 5 i.val).l ^^^ pEntry cfgB ⟨17 - i.val, by omega⟩ := by
  decide +kernel
theorem test_wit_palindromic_P : ∀ i : Fin 18, pEntry cfgZ i = pEntry cfgZ ⟨17 - i.val, by omega⟩ := by decide +kernel
theorem test_wit_chunk_lengths :
    ([0x41, 0x42, 0x43, 0x44, 0x45, 0x46, 0x47, 0x48] : List Byte).length = 8 ∧ 1 ≤ ([0x00] : List Byte).length ∧
      ([] : List Byte).length < 8 ∧ seven.length < 8 := by decide
theorem test_wit_short_modes : cfgB.shortCtMode = .zextHigh ∧ ({ cfgB with shortCtMode := .padLow } : Config).shortCtMode = .padLow :=
  ⟨rfl, rfl⟩

theorem test_wit_byte_first_and_seventh :
    Feeds (running .E [] [.byte 0x41, .eos]) (.byte 0x41) [.eos] ∧ (running .E [] [.byte 0x41, .eos]).cnt.val < 7 ∧
    Feeds (running .D [1, 2, 3, 4, 5, 6] [.byte 7]) (.byte 7) [] ∧ (running .D [1, 2, 3, 4, 5, 6] [.byte 7]).cnt.val < 7 :=
  ⟨⟨rfl, rfl, rfl⟩, by decide, ⟨rfl, rfl, rfl⟩, by decide⟩
theorem test_wit_byte_eighth :
    ∀ m : Bool, let s := running (Mode.ofBit m) seven [.byte 0x48]
      Feeds s (.byte 0x48) [] ∧ s.cnt.val = 7 ∧ s.buf.toList.take 7 = seven.map some ∧ s.mode = Mode.ofBit m :=
  fun b => ⟨⟨rfl, rfl, rfl⟩, rfl, by cases b <;> decide, rfl⟩
theorem test_wit_eos_one_byte :
    ∀ m : Bool, let s := running (Mode.ofBit m) [0x41] [.eos, .byte 1]
      Feeds s .eos [.byte 1] ∧ 1 ≤ s.cnt.val ∧ s.cnt.val ≤ 7 ∧ s.buf.toList.take s.cnt.val = [0x41#8].map some ∧
        s.mode = Mode.ofBit m :=
  fun b => ⟨⟨rfl, rfl, rfl⟩, by cases b <;> decide, by cases b <;> decide, by cases b <;> decide, rfl⟩
theorem test_wit_eos_seven_bytes :
    let s := running .D seven [.eos]
    Feeds s .eos [] ∧ 1 ≤ s.cnt.val ∧ s.cnt.val ≤ 7 ∧ s.buf.toList.take s.cnt.val = seven.map some :=
  ⟨⟨rfl, rfl, rfl⟩, by decide, by decide, by decide⟩
theorem test_wit_eos_alone : Feeds (running .E [] [.eos]) .eos [] ∧ (running .E [] [.eos]).cnt = 0 := ⟨⟨rfl, rfl, rfl⟩, rfl⟩
theorem test_wit_input_error : Feeds (running .D seven [.err, .byte 1]) .err [.byte 1] := ⟨rfl, rfl, rfl⟩
theorem test_wit_emits_last_and_final :
    Emits (emitting .E 0x0102030405060708 8 7 true [.ok]) 8 .ok [] ∧ (emitting .E 0x0102030405060708 8 7 true [.ok]).final = true :=
  ⟨⟨rfl, rfl, by decide, by decide, rfl⟩, rfl⟩
theorem test_wit_emits_last_not_final : Emits (emitting .D 0x4900000000000000 1 0 false [.ok, .ok]) 0x49 .ok [.ok] :=
  ⟨rfl, rfl, by decide, by decide, rfl⟩
theorem test_wit_emits_not_last : Emits (emitting .E 0x0102030405060708 8 0 false [.ok]) 1 .ok [] :=
  ⟨rfl, rfl, by decide, by decide, rfl⟩
theorem test_wit_output_error : Emits (emitting .E 0x4D4CE5FA494B1E19 8 3 false [.err]) 0xFA .err [] :=
  ⟨rfl, rfl, by decide, by decide, rfl⟩
theorem test_wit_waits :
    ((idleAt cfgB).phase = .idle ∧ (idleAt cfgB).env.cmds = []) ∧
    ((responding 0).phase = .resp ∧ (responding 0).env.takes = 0) ∧
    ((running .E seven []).phase = .run ∧ (running .E seven []).env.input = []) ∧
    ((emitting .D 1 8 2 true []).phase = .emit ∧ (emitting .D 1 8 2 true []).env.answers = [] ∧
      ∀ j : Fin 8, ((emitting .D 1 8 2 true []).obuf[j]).isSome = true) ∧
    rstAsserted (emitting .D 1 8 2 true []) = false :=
  ⟨⟨rfl, rfl⟩, ⟨rfl, rfl⟩, ⟨rfl, rfl⟩, ⟨rfl, rfl, by decide⟩, rfl⟩
theorem test_wit_completed_run :
    ∀ b : Bool, let m := Mode.ofBit b
      let s := { offering [⟨runWord m, 3⟩, ⟨0, 0⟩] with
        env := { Env.quiet with
          cmds := [⟨runWord m, 3⟩, ⟨0, 0⟩], input := [.byte 0x41, .eos, .err],
          answers := List.replicate (runOutput m cfgB [0x41]).length Answer.ok ++ [Answer.err], rst := [false] } }
      s.phase = .idle ∧ (∀ l ∈ s.env.rst, l = false) ∧ s.env.cmds = ⟨runWord m, 3⟩ :: [⟨0, 0⟩] ∧
        s.env.input = [0x41#8].map .byte ++ .eos :: [.err] ∧
        s.env.answers = List.replicate (runOutput m s.cfg [0x41]).length .ok ++ [.err] :=
  fun _ => ⟨rfl, by simp, rfl, rfl, rfl⟩
/-- `chunksOf` cuts 9 bytes into 8 and 1. -/
theorem test_wit_chunks : chunksOf (seven ++ [0x48, 0x49]) = [seven ++ [0x48], [0x49]] := by decide
theorem test_wit_block_output :
    let s := running .E seven [.byte 0x48]
    let s' := { running .E seven [.byte 0x48, .eos] with final := true, rspData := 9 }
    Feeds s (.byte 0x48) [] ∧ Feeds s' (.byte 0x48) [.eos] ∧ s.cnt.val = 7 ∧ s'.cnt.val = 7 ∧
      s.buf.toList.take 7 = s'.buf.toList.take 7 ∧ s.mode = s'.mode ∧ s.cfg = s'.cfg ∧
      (∃ t, step s = .next t) ∧ ∃ t', step s' = .next t' :=
  ⟨⟨rfl, rfl, rfl⟩, ⟨rfl, rfl, rfl⟩, rfl, rfl, rfl, rfl, rfl, ⟨_, rfl⟩, ⟨_, rfl⟩⟩
theorem test_wit_reset : rstAsserted (reseting (running .E seven [.byte 1])) = true := rfl

/-! States of each phase that meet the invariants, with a step from each. -/

theorem test_wit_inv_idle : State.Inv (offering [⟨0x90, 0⟩]) := by constructor <;> decide
theorem test_wit_inv_resp : State.Inv (responding 1) := by constructor <;> decide
theorem test_wit_inv_run : State.Inv (running .D seven [.byte 0x48]) := by constructor <;> decide
theorem test_wit_inv_run_error : State.Inv (running .E [0x41] [.err]) := by constructor <;> decide
theorem test_wit_inv_emit : State.Inv (emitting .E 0x0102030405060708 8 7 true [.ok]) := by constructor <;> decide
theorem test_wit_inv_emit_one : State.Inv (emitting .D 0x4900000000000000 1 0 false [.err]) := by constructor <;> decide
theorem test_wit_steps :
    (∃ t, step (offering [⟨0x90, 0⟩]) = .next t) ∧ (∃ t, step (responding 1) = .next t) ∧
    (∃ t, step (running .E [0x41] [.err]) = .next t) ∧ (∃ t, step (emitting .D 0x4900000000000000 1 0 false [.err]) = .next t) ∧
    ∃ t, step (emitting .E 0x0102030405060708 8 7 true [.ok]) = .next t :=
  ⟨⟨_, rfl⟩, ⟨_, rfl⟩, ⟨_, rfl⟩, ⟨_, rfl⟩, ⟨_, rfl⟩⟩
theorem test_wit_reachable :
    ∃ t, core.run 2 { State.resetWith cfgB with env := { Env.quiet with cmds := [⟨0x90, 0⟩], input := [.byte 1] } } = .next t :=
  ⟨_, rfl⟩
theorem test_wit_response_not_written :
    (∃ t, step (running .E [] [.byte 1]) = .next t ∧ t.phase ≠ .resp) ∧ rstAsserted (running .E [] [.byte 1]) = false ∧
      (responding 0).phase = .resp :=
  ⟨⟨_, rfl, by decide⟩, rfl, rfl⟩
theorem test_wit_later_offers :
    (offering [⟨0x10, 0⟩]).env.cmds ≠ [] ∧ (running .E [] [.eos]).env.input ≠ [] ∧
      (emitting .E 1 8 0 true [.ok]).env.answers ≠ [] := by decide
theorem test_wit_byte_lists : 1 ≤ ([0x41] : List Byte).length ∧ (seven ++ [0x48]).length ≤ 8 := by decide

end Sys2Proof.Tests
end

/-! Proofs for the scope family (00_scope.md): no step writes the parameters (R10), and none reads the key material (R7). -/

namespace Sys2Proof.Machine

/-! ## The parameters are never written (R10) -/

/-- Every move of a step keeps the parameters: each named update of the state does. -/
theorem Moved.cfg_eq {s t : State} (h : Moved s t) : t.cfg = s.cfg := by
  cases h with
  | gotEighth _ _ b rest _ _ u hu | gotEosInChunk _ _ rest _ _ _ u hu => simp [hu]
  | _ => simp

/-- Settles O50, by the case analysis of what one step can do. -/
theorem noStepWritesTheConfig : Obligations.NoStepWritesTheConfig :=
  fun _ _ hs => (step_moved hs).cfg_eq

end Sys2Proof.Machine

/-! ## The key material is never read (R7)

Replacing the key material commutes with each operation of the model, layer by layer: the functions of the parameters give the same
values, the updates of the state carry the key material along, and so does the step of each phase. -/

namespace Sys2Proof

/-- The parameters with other key material. -/
def Config.withKey (K : Vector Word 14) (c : Config) : Config := { c with K := K }

/-- The state of an instance with other key material. -/
def Machine.State.withKey (K : Vector Word 14) (s : State) : State := { s with cfg := s.cfg.withKey K }

end Sys2Proof

namespace Sys2Proof.Machine
open Sys2Proof.Claim

section
variable (K : Vector Word 14)

/-! The fields of the state. -/

@[simp] theorem withKey_phase (s : State) : (s.withKey K).phase = s.phase := rfl
@[simp] theorem withKey_mode (s : State) : (s.withKey K).mode = s.mode := rfl
@[simp] theorem withKey_buf (s : State) : (s.withKey K).buf = s.buf := rfl
@[simp] theorem withKey_cnt (s : State) : (s.withKey K).cnt = s.cnt := rfl
@[simp] theorem withKey_obuf (s : State) : (s.withKey K).obuf = s.obuf := rfl
@[simp] theorem withKey_olen (s : State) : (s.withKey K).olen = s.olen := rfl
@[simp] theorem withKey_oidx (s : State) : (s.withKey K).oidx = s.oidx := rfl
@[simp] theorem withKey_cfg (s : State) : (s.withKey K).cfg = s.cfg.withKey K := rfl
@[simp] theorem withKey_env (s : State) : (s.withKey K).env = s.env := rfl

/-! The functions of the parameters. -/

@[simp] theorem pEntry_withKey (c : Config) : pEntry (c.withKey K) = pEntry c := rfl
@[simp] theorem roundF_withKey (c : Config) : roundF (c.withKey K) = roundF c := rfl

@[simp] theorem feistelRound_withKey (c : Config) : feistelRound (c.withKey K) = feistelRound c := by
  funext h i; simp [feistelRound]

@[simp] theorem transform_withKey (c : Config) : transform (c.withKey K) = transform c := by
  funext rounds wl wr x; simp [transform]

@[simp] theorem encrypt_withKey (c : Config) : encrypt (c.withKey K) = encrypt c := by
  funext x; simp [encrypt]

@[simp] theorem decrypt_withKey (c : Config) : decrypt (c.withKey K) = decrypt c := by
  funext x; simp [decrypt]

@[simp] theorem ctValue_withKey (c : Config) : ctValue (c.withKey K) = ctValue c := rfl

@[simp] theorem blockValue_withKey (s : State) (chunk : List Byte) :
    blockValue (s.withKey K) chunk = blockValue s chunk := by simp [blockValue]

/-! The updates of the state. -/

@[simp] theorem respond_withKey (st : Status) (d : Block) (n : BitVec 4) (s : State) :
    respond st d n (s.withKey K) = (respond st d n s).withKey K := rfl
@[simp] theorem startRun_withKey (m : Mode) (s : State) : startRun m (s.withKey K) = (startRun m s).withKey K := rfl
@[simp] theorem raiseIoError_withKey (p : IoPort) (s : State) :
    raiseIoError p (s.withKey K) = (raiseIoError p s).withKey K := by cases p <;> rfl
@[simp] theorem consumeResponse_withKey (s : State) :
    consumeResponse (s.withKey K) = (consumeResponse s).withKey K := rfl
@[simp] theorem resetBlock_withKey (s : State) : resetBlock (s.withKey K) = (resetBlock s).withKey K := rfl
@[simp] theorem passRst_withKey (s : State) : passRst (s.withKey K) = (passRst s).withKey K := rfl
@[simp] theorem withCmds_withKey (cs : List Command) (s : State) :
    withCmds cs (s.withKey K) = (withCmds cs s).withKey K := rfl
@[simp] theorem withTakes_withKey (n : Nat) (s : State) : withTakes n (s.withKey K) = (withTakes n s).withKey K := rfl
@[simp] theorem withInput_withKey (ts : List Token) (s : State) :
    withInput ts (s.withKey K) = (withInput ts s).withKey K := rfl
@[simp] theorem withAnswers_withKey (as : List Answer) (s : State) :
    withAnswers as (s.withKey K) = (withAnswers as s).withKey K := rfl
@[simp] theorem wrote_withKey (b : Byte) (s : State) : wrote b (s.withKey K) = (wrote b s).withKey K := rfl
@[simp] theorem pushByte_withKey (b : Byte) (s : State) : pushByte b (s.withKey K) = (pushByte b s).withKey K := rfl
@[simp] theorem markFinal_withKey (s : State) : markFinal (s.withKey K) = (markFinal s).withKey K := rfl
@[simp] theorem withOidx_withKey (n : Fin 9) (s : State) : withOidx n (s.withKey K) = (withOidx n s).withKey K := rfl
@[simp] theorem loadBlock_withKey (y : Block) (s : State) :
    loadBlock y (s.withKey K) = (loadBlock y s).withKey K := rfl

@[simp] theorem endBlock_withKey (s : State) : endBlock (s.withKey K) = (endBlock s).withKey K := by
  cases h : s.final with
  | true => rw [endBlock_final h, endBlock_final (s := s.withKey K) h]; rfl
  | false => rw [endBlock_more h, endBlock_more (s := s.withKey K) h]; rfl

@[simp] theorem afterLoad_withKey (s : State) : afterLoad (s.withKey K) = (afterLoad s).withKey K := by
  simp only [afterLoad, withKey_olen, endBlock_withKey]
  split <;> rfl

@[simp] theorem emitOk_withKey (n : Fin 9) (s : State) : emitOk n (s.withKey K) = (emitOk n s).withKey K := by
  simp only [emitOk, withOidx_withKey, withKey_olen, withKey_oidx, endBlock_withKey]
  split <;> rfl

/-! The commands. -/

/-- An effect that carries the key material along does so when a command performs it. -/
theorem onAccept_withKey {f : State → State} (hf : ∀ s, f (s.withKey K) = (f s).withKey K) (s : State) :
    onAccept f (s.withKey K) = onNext (State.withKey K) (onAccept f s) := by
  by_cases h : s.phase = .idle
  · rw [onAccept_idle h, onAccept_idle (s := s.withKey K) h, hf]; rfl
  · rw [onAccept_busy h, onAccept_busy (s := s.withKey K) h]; rfl

theorem exec_withKey (i : Instr) (s : State) : exec i (s.withKey K) = onNext (State.withKey K) (exec i s) := by
  cases i with
  | pack | unpack | ustrip => exact onAccept_withKey K (respond_withKey K _ _ _) s
  | ecbe | ecbd => exact onAccept_withKey K (startRun_withKey K _) s
  | enc x => exact onAccept_withKey K (f := fun s => respond .ok (encrypt s.cfg x) 8 s) (by simp) s
  | dec x => exact onAccept_withKey K (f := fun s => respond .ok (decrypt s.cfg x) 8 s) (by simp) s
  | frnd w => exact onAccept_withKey K (f := fun s => respond .ok (zext64 (roundF s.cfg w)) 8 s) (by simp) s
  | echunk b => exact onAccept_withKey K (f := fun s => respond .ok (encrypt s.cfg (pack b)) 8 s) (by simp) s
  | dchunk v =>
    exact onAccept_withKey K
      (f := fun s => respond .ok (decrypt s.cfg v) (BitVec.ofNat 4 (keptLen (decrypt s.cfg v)).val) s) (by simp) s

theorem acceptCommand_withKey (c : Command) (s : State) :
    acceptCommand c (s.withKey K) = onNext (State.withKey K) (acceptCommand c s) := by
  unfold acceptCommand
  split
  · exact exec_withKey K _ s
  · exact onAccept_withKey K (respond_withKey K _ _ _) s

/-! The tokens of a run. -/

theorem processBlock_withKey (n : Nat) (s : State) :
    processBlock n (s.withKey K) = onNext (State.withKey K) (processBlock n s) := by
  simp only [processBlock, withKey_buf, blockValue_withKey, loadBlock_withKey, afterLoad_withKey]
  split <;> rfl

theorem takeByte_withKey (b : Byte) (s : State) :
    takeByte b (s.withKey K) = onNext (State.withKey K) (takeByte b s) := by
  simp only [takeByte, withKey_cnt, pushByte_withKey, processBlock_withKey, apply_ite (onNext (State.withKey K))]
  rfl

theorem takeEos_withKey (s : State) : takeEos (s.withKey K) = onNext (State.withKey K) (takeEos s) := by
  simp only [takeEos, withKey_cnt, respond_withKey, markFinal_withKey, processBlock_withKey,
    apply_ite (onNext (State.withKey K))]
  rfl

theorem takeToken_withKey (t : Token) (s : State) :
    takeToken t (s.withKey K) = onNext (State.withKey K) (takeToken t s) := by
  cases t with
  | byte b => exact takeByte_withKey K b s
  | eos => exact takeEos_withKey K s
  | err => rfl

/-! The step of each phase. -/

theorem stepIdle_withKey (s : State) : stepIdle (s.withKey K) = onNext (State.withKey K) (stepIdle s) := by
  simp only [stepIdle, withKey_env, withCmds_withKey, acceptCommand_withKey]
  split <;> rfl

theorem stepResp_withKey (s : State) : stepResp (s.withKey K) = onNext (State.withKey K) (stepResp s) := by
  simp only [stepResp, withKey_env, withTakes_withKey, consumeResponse_withKey]
  split <;> rfl

theorem inRead_withKey (s : State) : inRead (s.withKey K) = (inRead s).map (Prod.map id (State.withKey K)) := by
  simp only [inRead, withKey_env, withInput_withKey]
  split <;> rfl

theorem stepRun_withKey (s : State) : stepRun (s.withKey K) = onNext (State.withKey K) (stepRun s) := by
  simp only [stepRun, inRead_withKey]
  cases inRead s with
  | none => rfl
  | some r => exact takeToken_withKey K r.1 r.2

theorem outWrite_withKey (b : Byte) (s : State) :
    outWrite b (s.withKey K) = (outWrite b s).map (Prod.map id (State.withKey K)) := by
  simp only [outWrite, withKey_env, withAnswers_withKey, wrote_withKey]
  split <;> rfl

theorem stepEmit_withKey (s : State) : stepEmit (s.withKey K) = onNext (State.withKey K) (stepEmit s) := by
  simp only [stepEmit, withKey_oidx, withKey_olen, withKey_obuf, outWrite_withKey]
  split
  · cases s.obuf[s.oidx.val] with
    | none => rfl
    | some b =>
      dsimp only
      match outWrite b s with
      | none => rfl
      | some (.ok, t) => exact congrArg Host.Outcome.next (emitOk_withKey K _ t)
      | some (.err, t) => exact congrArg Host.Outcome.next (raiseIoError_withKey K .out t)
  · rfl

theorem stepPhase_withKey (s : State) : stepPhase (s.withKey K) = onNext (State.withKey K) (stepPhase s) := by
  simp only [stepPhase, withKey_phase]
  cases s.phase with
  | idle => exact stepIdle_withKey K s
  | resp => exact stepResp_withKey K s
  | run => exact stepRun_withKey K s
  | emit => exact stepEmit_withKey K s

theorem step_withKey (s : State) : step (s.withKey K) = onNext (State.withKey K) (step s) := by
  simp only [step, passRst_withKey, resetBlock_withKey, stepPhase_withKey, apply_ite (onNext (State.withKey K))]
  rfl

end

/-- Settles O27: replacing the key material commutes with the step. -/
theorem keyMaterialIsNeverRead : Obligations.KeyMaterialIsNeverRead :=
  fun s K => step_withKey K s

end Sys2Proof.Machine

/-! Proofs for the state family (10_state.md): the state after reset (R43), and the invariants of every reachable state (R42).

`State.Inv` is R42 made inductive. Each named update of the state keeps it, so by `step_moved` each step does, and so does a run. -/

namespace Sys2Proof.Machine

/-! ## The state after reset (R43) -/

/-- In IDLE exactly `cmd_ready` is up (R34). -/
theorem handshake_of_idle {s : State} (h : s.phase = .idle) :
    cmdReady s = true ∧ rspValid s = false ∧ inReady s = false ∧ outValid s = false := by
  simp [cmdReady, rspValid, inReady, outValid, h]

theorem resetWith_resetValues (c : Config) : (State.resetWith c).ResetValues := by
  obtain ⟨hcmd, hrsp, hin, hout⟩ := handshake_of_idle (resetWith_phase c)
  exact ⟨rfl, rfl, rfl, rfl, rfl, rfl, rfl, hcmd, hrsp, hin, hout⟩

/-- Settles O45: each item is the one `State.resetWith` names, and IDLE decides the handshake signals. -/
theorem stateAfterResetHasTheResetValues : Obligations.StateAfterResetHasTheResetValues :=
  ⟨fun c => ⟨resetWith_resetValues c, resetWith_cfg c⟩, resetWith_resetValues Config.atReset⟩

/-! ## The invariants of R42: where they hold by the shape of the state -/

/-- A free chunk buffer meets R27. -/
theorem buf_cnt_of_free {s : State} (hb : s.buf = noValue) (hc : s.cnt = 0) (j : Fin 8) :
    (s.buf[j]).isSome = true ↔ j.val < s.cnt.val := by
  rw [hb, hc, noValue_get]
  simp

/-- Outside RUN and EMIT only the clauses about `oidx`, `rspLen` and `buf` say anything. -/
theorem inv_of_no_run {s : State} (hp : s.phase = .idle ∨ s.phase = .resp) (ho : s.oidx.val ≤ s.olen.val)
    (hr : s.rspLen.toNat ≤ 8) (hb : ∀ j : Fin 8, (s.buf[j]).isSome = true ↔ j.val < s.cnt.val) : s.Inv := by
  have hrun : s.phase ≠ .run := by rcases hp with hp | hp <;> simp [hp]
  have hemit : s.phase ≠ .emit := by rcases hp with hp | hp <;> simp [hp]
  exact {
    cnt_run := fun h => absurd h hrun
    oidx_le := ho
    olen_enc := fun h => absurd h hemit
    obuf_emit := fun h => absurd h hemit
    rspLen_le := hr
    buf_cnt := hb
    oidx_emit := fun h => absurd h hemit
    cnt_emit := fun h => absurd h hemit
    final_run := fun h => absurd h hrun }

/-- The invariants say nothing about the environment's side of the ports. -/
theorem State.Inv.withEnv {s : State} (h : s.Inv) (e : Env) : State.Inv { s with env := e } :=
  { h with }

/-- The invariants hold right after reset. -/
theorem resetWith_inv (c : Config) : (State.resetWith c).Inv :=
  inv_of_no_run (.inl rfl) (Nat.le_refl 0) (Nat.zero_le 8) (buf_cnt_of_free rfl rfl)

/-- A code of a length 0..8 reads back as at most 8 (R31). -/
theorem lenCode_le (n : Fin 9) : (BitVec.ofNat 4 n.val).toNat ≤ 8 := by
  simp only [BitVec.toNat_ofNat]; omega

theorem resetBlock_inv (s : State) : (resetBlock s).Inv :=
  inv_of_no_run (.inl rfl) (Nat.le_refl 0) (lenCode_le _) (buf_cnt_of_free rfl rfl)

/-! ## Each update of the state keeps them -/

theorem respond_inv {s : State} (h : s.Inv) (st : Status) (d : Block) {n : BitVec 4} (hn : n.toNat ≤ 8) :
    (respond st d n s).Inv :=
  inv_of_no_run (.inr rfl) h.oidx_le hn h.buf_cnt

theorem consumeResponse_inv {s : State} (h : s.Inv) : (consumeResponse s).Inv :=
  inv_of_no_run (.inl rfl) h.oidx_le h.rspLen_le h.buf_cnt

theorem raiseIoError_inv {s : State} (h : s.Inv) (p : IoPort) : (raiseIoError p s).Inv := by
  cases p with
  | inp => exact inv_of_no_run (.inr rfl) h.oidx_le (Nat.zero_le 8) (buf_cnt_of_free rfl rfl)
  | out => exact inv_of_no_run (.inr rfl) (oidxAfterError_le s) (Nat.zero_le 8) h.buf_cnt

theorem startRun_inv {s : State} (h : s.Inv) (m : Mode) : (startRun m s).Inv where
  cnt_run := fun _ => Nat.zero_le 7
  oidx_le := Nat.le_refl 0
  olen_enc := nofun
  obuf_emit := nofun
  rspLen_le := h.rspLen_le
  buf_cnt := buf_cnt_of_free rfl rfl
  oidx_emit := nofun
  cnt_emit := nofun
  final_run := fun _ => rfl

/-- A byte that does not fill the chunk: entry `cnt` now holds a value, and no other entry changed (R160). -/
theorem pushByte_inv {s : State} (h : s.Inv) (hp : s.phase = .run) (hc : s.cnt.val < 7) (b : Byte) :
    (pushByte b s).Inv := by
  have hcnt : (pushByte b s).cnt.val = s.cnt.val + 1 := pushByte_cnt_val (by omega) b
  have hemit : (pushByte b s).phase ≠ .emit := by simp [hp]
  refine { h with
    cnt_run := fun _ => by omega
    olen_enc := fun he => absurd he hemit
    obuf_emit := fun he => absurd he hemit
    buf_cnt := fun j => ?_
    oidx_emit := fun he => absurd he hemit
    cnt_emit := fun he => absurd he hemit }
  rw [pushByte_buf_get, hcnt]
  split
  · simp; omega
  · rw [h.buf_cnt]; omega

/-- The end of a block, with the chunk buffer free: the run reads on, which only a block that is not final does, or answers (R168). -/
theorem endBlock_inv {s : State} (ho : s.oidx.val ≤ s.olen.val) (hr : s.rspLen.toNat ≤ 8)
    (hb : ∀ j : Fin 8, (s.buf[j]).isSome = true ↔ j.val < s.cnt.val) (hc : s.cnt.val = 0) : (endBlock s).Inv := by
  obtain ⟨heq, hfinal⟩ | ⟨heq, -⟩ := endBlock_cases s
  · rw [heq]
    exact {
      cnt_run := fun _ => by simp [hc]
      oidx_le := ho
      olen_enc := nofun
      obuf_emit := nofun
      rspLen_le := hr
      buf_cnt := hb
      oidx_emit := nofun
      cnt_emit := nofun
      final_run := fun _ => hfinal }
  · rw [heq]
    exact inv_of_no_run (.inr rfl) ho (Nat.zero_le 8) hb

/-- After a block is loaded every entry of `obuf` holds a value and the chunk buffer is free; EMIT is entered only with a byte to
offer (R161). -/
theorem afterLoad_loadBlock_inv {s : State} (hr : s.rspLen.toNat ≤ 8) (y : Block) : (afterLoad (loadBlock y s)).Inv := by
  have hb := buf_cnt_of_free (loadBlock_buf y s) (loadBlock_cnt y s)
  unfold afterLoad
  split
  · exact endBlock_inv (Nat.zero_le _) hr hb rfl
  · rename_i hlen
    exact {
      cnt_run := nofun
      oidx_le := Nat.zero_le _
      olen_enc := fun _ (hm : s.mode = .E) => by simp [emitLen, hm]
      obuf_emit := fun _ j _ => by simp
      rspLen_le := hr
      buf_cnt := hb
      oidx_emit := fun _ => Nat.pos_of_ne_zero fun h0 => hlen (Fin.ext h0)
      cnt_emit := fun _ => rfl
      final_run := nofun }

/-- A byte the sink took: the block ends with its last byte, and before that a byte is left to offer (R170). -/
theorem emitOk_inv {s : State} (h : s.Inv) (hp : s.phase = .emit) (ho : s.oidx.val < s.olen.val) :
    (emitOk (Fin.ofNat 9 (s.oidx.val + 1)) s).Inv := by
  have hn : (Fin.ofNat 9 (s.oidx.val + 1)).val = s.oidx.val + 1 := by simp only [Fin.val_ofNat]; omega
  have hle : (Fin.ofNat 9 (s.oidx.val + 1)).val ≤ s.olen.val := by omega
  by_cases hlast : Fin.ofNat 9 (s.oidx.val + 1) = s.olen
  · rw [emitOk_last hlast]
    exact endBlock_inv hle h.rspLen_le h.buf_cnt (h.cnt_emit hp)
  · rw [emitOk_more hlast]
    exact { h with
      oidx_le := hle
      oidx_emit := fun _ => Nat.lt_of_le_of_ne hle fun he => hlast (Fin.ext he) }

/-! ## Steps and runs keep them -/

/-- Every move of a step keeps the invariants. -/
theorem Moved.inv {s t : State} (hm : Moved s t) (h : s.Inv) : t.Inv := by
  cases hm with
  | reset => exact resetBlock_inv _
  | wait => exact h.withEnv _
  | answered _ _ _ _ _ _ _ _ _ hn => exact respond_inv (h.withEnv _) _ _ hn
  | started _ _ _ _ _ m => exact startRun_inv (h.withEnv _) m
  | consumed => exact consumeResponse_inv (h.withEnv _)
  | gotByte _ hp b rest _ hc => exact pushByte_inv (s := withInput rest (passRst s)) (h.withEnv _) hp hc b
  | gotEighth _ _ _ _ _ _ u hu => exact afterLoad_loadBlock_inv (hu ▸ h.rspLen_le) _
  | gotLastEos => exact respond_inv (h.withEnv _) _ _ (Nat.zero_le 8)
  | gotEosInChunk _ _ _ _ _ _ u hu => exact afterLoad_loadBlock_inv (hu ▸ h.rspLen_le) _
  | gotErr => exact raiseIoError_inv (h.withEnv _) .inp
  | emitted _ hp ho => exact emitOk_inv (h.withEnv _) hp ho
  | emitFailed => exact raiseIoError_inv (h.withEnv _) .out

theorem step_inv {s t : State} (h : s.Inv) (hs : step s = .next t) : t.Inv :=
  (step_moved hs).inv h

/-- What every step keeps, every run keeps. -/
theorem run_keeps {P : State → Prop} (hstep : ∀ s t, P s → step s = .next t → P t) {k : Nat} {s t : State} (hs : P s)
    (hr : core.run k s = .next t) : P t := by
  induction k generalizing s with
  | zero => cases hr; exact hs
  | succ k ih =>
    obtain ⟨u, hu, hr⟩ := run_succ_next hr
    exact ih (hstep s u hs hu) hr

/-- The invariants hold in every state that a run from reset reaches, whatever the parameters and the environment. -/
theorem reachable_inv {c : Config} {e : Env} {k : Nat} {t : State}
    (hr : core.run k { State.resetWith c with env := e } = .next t) : t.Inv :=
  run_keeps (fun _ _ => step_inv) ((resetWith_inv c).withEnv e) hr

/-- Settles O49: the clauses of R42 are those of the invariant, with the two bounds of `Fin 9`. -/
theorem reachableStatesMeetTheStatedInvariants : Obligations.ReachableStatesMeetTheStatedInvariants := by
  intro c e k t hr
  have h : t.Inv := reachable_inv hr
  exact ⟨t.cnt.is_le, h.cnt_run, h.oidx_le, t.olen.is_le, h.olen_enc, h.obuf_emit, h.rspLen_le⟩

end Sys2Proof.Machine

/-! Proofs for the encoding family (30_encoding.md): the three kinds of unmatched word (R76) and what accepting one does (R75), the
ignored bits of DATA (R77), and the pseudo-commands (R79). -/

namespace Sys2Proof
open Machine Claim

section
variable {w : BitVec 8} (d : Block)

/-! ## The decoder, opcode by opcode (R73) -/

theorem lenZero_of_ne {len : BitVec 4} (h : len ≠ 0) (i : Instr) : lenZero len i = .error .lenNotZero :=
  if_neg fun h0 => h (BitVec.eq_of_toNat_eq h0)

theorem lenUpTo8_of_le {len : BitVec 4} (h : len.toNat ≤ 8) (i : Instr) : lenUpTo8 len i = .ok i := if_pos h

theorem lenUpTo8_of_gt {len : BitVec 4} (h : 8 < len.toNat) (i : Instr) : lenUpTo8 len i = .error .lenAboveEight :=
  if_neg (Nat.not_le.mpr h)

theorem decode_frnd (h : opField w = 0x3) : decode ⟨w, d⟩ = lenZero (lenField w) (.frnd (wordOperand d)) := by
  simp [decode, h]

theorem decode_pack (h : opField w = 0x4) :
    decode ⟨w, d⟩ = lenUpTo8 (lenField w) (.pack (bytesOperand (lenField w).toNat d)) := by
  simp [decode, h]

theorem decode_pack_of_len (h : opField w = 0x4) {n : Nat} (hlen : (lenField w).toNat = n) (hn : n ≤ 8) :
    decode ⟨w, d⟩ = .ok (.pack (bytesOperand n d)) := by
  rw [decode_pack d h, hlen, lenUpTo8_of_le (hlen ▸ hn)]

theorem decode_echunk (h : opField w = 0x7) :
    decode ⟨w, d⟩ = lenUpTo8 (lenField w) (.echunk (bytesOperand (lenField w).toNat d)) := by
  simp [decode, h]

theorem decode_echunk_of_len (h : opField w = 0x7) {n : Nat} (hlen : (lenField w).toNat = n) (hn : n ≤ 8) :
    decode ⟨w, d⟩ = .ok (.echunk (bytesOperand n d)) := by
  rw [decode_echunk d h, hlen, lenUpTo8_of_le (hlen ▸ hn)]

theorem decode_ecbe (h : opField w = 0x9) : decode ⟨w, d⟩ = lenZero (lenField w) .ecbe := by
  simp [decode, h]

theorem decode_ecbd (h : opField w = 0xA) : decode ⟨w, d⟩ = lenZero (lenField w) .ecbd := by
  simp [decode, h]

/-- The opcodes that are neither reserved nor carry a LEN (R73, R76). -/
theorem opcode_without_len {op : BitVec 4} :
    op ≠ 0 → op.toNat < 0xB → op ≠ 0x4 → op ≠ 0x7 →
      op = 0x1 ∨ op = 0x2 ∨ op = 0x3 ∨ op = 0x5 ∨ op = 0x6 ∨ op = 0x8 ∨ op = 0x9 ∨ op = 0xA := by
  revert op; decide

/-- A word of an opcode without a LEN decodes only if its LEN is 0. -/
theorem decode_eq_lenZero (h0 : opField w ≠ 0) (hB : (opField w).toNat < 0xB) (h4 : opField w ≠ 0x4)
    (h7 : opField w ≠ 0x7) : ∃ i, decode ⟨w, d⟩ = lenZero (lenField w) i := by
  obtain h | h | h | h | h | h | h | h := opcode_without_len h0 hB h4 h7 <;>
    exact ⟨_, by simp only [decode, h]; rfl⟩

/-! ## The three kinds of unmatched word (R76) -/

theorem decode_reserved (h : opField w = 0 ∨ 0xB ≤ (opField w).toNat) : decode ⟨w, d⟩ = .error .reservedOp := by
  have hop : opField w = 0 ∨ opField w = 0xB ∨ opField w = 0xC ∨ opField w = 0xD ∨ opField w = 0xE ∨ opField w = 0xF := by
    revert h; generalize opField w = op; revert op; decide
  obtain h | h | h | h | h | h := hop <;> simp only [decode, h] <;> rfl

theorem decode_lenAboveEight (h : opField w = 0x4 ∨ opField w = 0x7) (hlen : 8 < (lenField w).toNat) :
    decode ⟨w, d⟩ = .error .lenAboveEight := by
  obtain h | h := h
  · rw [decode_pack d h, lenUpTo8_of_gt hlen]
  · rw [decode_echunk d h, lenUpTo8_of_gt hlen]

theorem decode_lenNotZero (h0 : opField w ≠ 0) (hB : (opField w).toNat < 0xB) (h4 : opField w ≠ 0x4)
    (h7 : opField w ≠ 0x7) (hlen : lenField w ≠ 0) : decode ⟨w, d⟩ = .error .lenNotZero := by
  obtain ⟨i, hi⟩ := decode_eq_lenZero d h0 hB h4 h7
  rw [hi, lenZero_of_ne hlen]

end

/-- Settles O5: one lemma for each of the three kinds. -/
theorem reservedWordsAreUnmatchedByName : Obligations.ReservedWordsAreUnmatchedByName :=
  fun _ d => ⟨decode_reserved d, decode_lenAboveEight d, decode_lenNotZero d⟩

/-! ## The ignored bits of DATA (R72, R77) -/

theorem wordOperand_and_low (d : Block) : wordOperand (d &&& 0xFFFFFFFF) = wordOperand d := by
  apply BitVec.eq_of_toNat_eq
  have hmask : d.toNat &&& 0xFFFFFFFF = d.toNat % 2 ^ 32 := Nat.and_two_pow_sub_one_eq_mod d.toNat 32
  simp [wordOperand, lo32_toNat, hmask]

/-- A byte that lies above the bit k is untouched when the bits below k are cleared. -/
theorem byteOf_and_high (d : Block) {j k : Nat} (h : k ≤ 56 - 8 * j) :
    byteOf (d &&& (BitVec.allOnes 64 <<< k)) j = byteOf d j := by
  apply BitVec.eq_of_getLsbD_eq
  intro i hi
  have hk : ¬ 56 - 8 * j + i < k := by omega
  have h64 : 56 - 8 * j + i < 64 := by omega
  have hmask : (BitVec.allOnes 64 <<< k).getLsbD (56 - 8 * j + i) = true := by
    have hs : 56 - 8 * j + i - k < 64 := by omega
    rw [BitVec.getLsbD_shiftLeft, BitVec.getLsbD_allOnes]
    simp [hk, h64, hs]
  simp only [byteOf, BitVec.getLsbD_extractLsb', BitVec.getLsbD_and, hmask, Bool.and_true]

theorem bytesOperand_and_high (n : Nat) (d : Block) :
    bytesOperand n (d &&& (BitVec.allOnes 64 <<< (64 - 8 * n))) = bytesOperand n d := by
  apply List.ext_getElem (by simp [bytesOperand])
  intro j hj _
  have hjn : j < n := lt_of_lt_of_le hj (List.length_take_le _ _)
  have hbyte := byteOf_and_high d (j := j) (k := 64 - 8 * n) (by omega)
  simpa [bytesOperand, be8] using hbyte

/-- The decoder reads only the bits of DATA that the word keeps. -/
theorem decode_keptBits (w : BitVec 8) (d : Block) : decode ⟨w, keptBits w d⟩ = decode ⟨w, d⟩ := by
  unfold keptBits
  split
  · next h => rw [decode_frnd _ h, decode_frnd _ h, wordOperand_and_low]
  split
  · next h =>
    obtain h | h := h
    · rw [decode_pack _ h, decode_pack _ h, bytesOperand_and_high]
    · rw [decode_echunk _ h, decode_echunk _ h, bytesOperand_and_high]
  split
  · next h =>
    obtain h | h := h
    · rw [decode_ecbe _ h, decode_ecbe _ h]
    · rw [decode_ecbd _ h, decode_ecbd _ h]
  · rfl

theorem decode_eq_of_keptBits_eq {w : BitVec 8} {d d' : Block} (h : keptBits w d = keptBits w d') :
    decode ⟨w, d⟩ = decode ⟨w, d'⟩ := by
  rw [← decode_keptBits w d, h, decode_keptBits]

end Sys2Proof

namespace Sys2Proof.Machine
open Sys2Proof.Claim

/-! ## The step that accepts a command (R36) -/

/-- A step with a command on offer in IDLE accepts it. -/
theorem step_of_offers {s : State} {c : Command} {rest : List Command} (h : Offers s c rest) :
    step s = acceptCommand c (withCmds rest (passRst s)) := by
  obtain ⟨hidle, hrst, hcmds⟩ := h
  simp [step, stepPhase, stepIdle, hidle, hrst, hcmds]

/-- Of a command, acceptance sees only what it decodes to. -/
theorem acceptCommand_congr {c c' : Command} (h : decode c = decode c') (s : State) :
    acceptCommand c s = acceptCommand c' s := by
  simp only [acceptCommand, h]

theorem acceptCommand_unmatched {c : Command} {why : Unmatched} {s : State} (h : decode c = .error why)
    (hidle : s.phase = .idle) : acceptCommand c s = .next (respond .advisory 0 0 s) := by
  simp only [acceptCommand, h, onAccept_idle hidle]

/-- Settles O16: the step is the acceptance of an unmatched word. -/
theorem unmatchedWordAnswersAdvisory : Obligations.UnmatchedWordAnswersAdvisory := by
  intro s c rest why hoffers hwhy
  have hidle : (withCmds rest (passRst s)).phase = .idle := hoffers.1
  rw [step_of_offers hoffers, acceptCommand_unmatched hwhy hidle]
  rfl

/-- Settles O20: the decoder reads only the bits kept, and the step only what it decodes. -/
theorem ignoredBitsHaveNoEffect : Obligations.IgnoredBitsHaveNoEffect := by
  intro s w d d' rest hkept
  have hdecode := decode_eq_of_keptBits_eq hkept
  refine ⟨hdecode, fun hidle hrst => ?_⟩
  have hoffers (c : Command) : Offers (withCmds (c :: rest) s) c rest := ⟨hidle, hrst, rfl⟩
  rw [step_of_offers (hoffers _), step_of_offers (hoffers _)]
  exact acceptCommand_congr hdecode (withCmds rest (passRst s))

/-! ## The pseudo-commands (R79) -/

theorem bytesOperand_dataOfBytes {b : List Byte} (h : b.length ≤ 8) : bytesOperand b.length (dataOfBytes b) = b := by
  simp [bytesOperand, padTo8_of_le h]

theorem decode_encode_pack {b : List Byte} (h : b.length ≤ 8) : decode (encode (.pack b)) = .ok (.pack b) := by
  obtain ⟨hop, hlen⟩ := Laws.OpField.fields_of_len 0x40 (.inl rfl) b.length h
  rw [encode, decode_pack_of_len _ hop hlen h, bytesOperand_dataOfBytes h]

theorem decode_encode_echunk {b : List Byte} (h : b.length ≤ 8) : decode (encode (.echunk b)) = .ok (.echunk b) := by
  obtain ⟨hop, hlen⟩ := Laws.OpField.fields_of_len 0x70 (.inr rfl) b.length h
  rw [encode, decode_echunk_of_len _ hop hlen h, bytesOperand_dataOfBytes h]

theorem assemble_pack {b : List Byte} (h : b.length ≤ 8) :
    (AsmLine.pack b.length (dataOfBytes b)).assemble = some (encode (.pack b)) := if_pos h

theorem assemble_echunk {b : List Byte} (h : b.length ≤ 8) :
    (AsmLine.echunk b.length (dataOfBytes b)).assemble = some (encode (.echunk b)) := if_pos h

theorem assemble_packb {b : List Byte} (h1 : 1 ≤ b.length) (h8 : b.length ≤ 8) :
    (AsmLine.packb b).assemble = some (encode (.pack b)) := if_pos ⟨h1, h8⟩

theorem assemble_echunkb {b : List Byte} (h1 : 1 ≤ b.length) (h8 : b.length ≤ 8) :
    (AsmLine.echunkb b).assemble = some (encode (.echunk b)) := if_pos ⟨h1, h8⟩

/-- Settles O58: a line of bytes assembles to the encoding of its command, which decodes back; the other lines are tabled as equal. -/
theorem pseudoCommandsExpandAsTabled : Obligations.PseudoCommandsExpandAsTabled := by
  refine ⟨fun b h1 h8 => ⟨?_, ?_, ?_, ?_, ?_⟩, rfl, rfl, rfl⟩
  · rw [assemble_packb h1 h8, assemble_pack h8]
  · rw [assemble_echunkb h1 h8, assemble_echunk h8]
  · exact ⟨_, assemble_packb h1 h8, decode_encode_pack h8⟩
  · exact ⟨_, assemble_echunkb h1 h8, decode_encode_echunk h8⟩
  · rw [be8_dataOfBytes, padTo8_of_le h8]

end Sys2Proof.Machine

/-! Proofs for the engine family (40_feistel_engine.md): the round function (R101, R103), the two transforms (R105 to R110), and
the commands that expose them (R111 to R113). -/

namespace Sys2Proof.Machine
open Sys2Proof.Claim

/-! ## The round function and one round (R101, R104) -/

/-- Settles O22: the statement is F's definition with its intermediate values written in. -/
theorem roundFunctionInOneExpression : Obligations.RoundFunctionInOneExpression := fun _ _ => rfl

theorem roundF_of_zeroSBoxes {c : Config} (h : ZeroSBoxes c) (w : Word) : roundF c w = 0 := by
  simp [roundF, h 0 _, h 1 _, h 2 _, h 3 _]

section
variable (c : Config)

theorem feistelRound_eq (l r : Word) (i : Fin 18) :
    feistelRound c ⟨l, r⟩ i = ⟨r ^^^ roundF c (roundF c (l ^^^ pEntry c i)), l ^^^ pEntry c i⟩ := rfl

theorem word_xor_right_comm (u v w : Word) : u ^^^ v ^^^ w = u ^^^ w ^^^ v := by ac_rfl

/-- What a transform does after its rounds: its last swap undone, then entry wl into L and entry wr into R (R105, R107). -/
def whiten (wl wr : Fin 18) (h : Halves) : Halves := ⟨h.r ^^^ pEntry c wl, h.l ^^^ pEntry c wr⟩

theorem whiten_eq (wl wr : Fin 18) (l r : Word) : whiten c wl wr ⟨l, r⟩ = ⟨r ^^^ pEntry c wl, l ^^^ pEntry c wr⟩ := rfl

theorem transform_eq (rounds : List (Fin 18)) (wl wr : Fin 18) (x : Block) :
    transform c rounds wl wr x =
      joinHalves (whiten c wl wr (rounds.foldl (feistelRound c) ⟨hi32 x, lo32 x⟩)).l
        (whiten c wl wr (rounds.foldl (feistelRound c) ⟨hi32 x, lo32 x⟩)).r := rfl

theorem halves_transform (rounds : List (Fin 18)) (wl wr : Fin 18) (x : Block) :
    (⟨hi32 (transform c rounds wl wr x), lo32 (transform c rounds wl wr x)⟩ : Halves) =
      whiten c wl wr (rounds.foldl (feistelRound c) ⟨hi32 x, lo32 x⟩) := by
  rw [transform_eq, hi32_join, lo32_join]

/-! ## The order in which the transforms read the P-array -/

/-- The entry at the same distance from the other end of the P-array (R109). -/
def oppositeEntry (i : Fin 18) : Fin 18 := ⟨17 - i.val, by omega⟩

/-- The entry that encryption reads n-th, its whitening included: R first, then L. -/
def encEntry (n : Nat) : Fin 18 := Fin.ofNat 18 n

/-- The entry that decryption reads n-th. -/
def decEntry (n : Nat) : Fin 18 := oppositeEntry (encEntry n)

theorem encEntry_of_lt {n : Nat} (h : n < 18) : encEntry n = ⟨n, h⟩ := Fin.ext (Nat.mod_eq_of_lt h)

theorem encrypt_eq_transform_encEntry :
    encrypt c = transform c ((List.range 16).map encEntry) (encEntry 17) (encEntry 16) := rfl

theorem decrypt_eq_transform_decEntry :
    decrypt c = transform c ((List.range 16).map decEntry) (decEntry 17) (decEntry 16) := rfl

/-! Each transform reads the entries of the other backwards, from its last whitening entry on. -/

theorem decrypt_eq_transform_reverse_encEntry :
    decrypt c = transform c ((List.range 16).reverse.map fun n => encEntry (n + 2)) (encEntry 0) (encEntry 1) := rfl

theorem encrypt_eq_transform_reverse_decEntry :
    encrypt c = transform c ((List.range 16).reverse.map fun n => decEntry (n + 2)) (decEntry 0) (decEntry 1) := rfl

/-! ## Round traces (R105 to R107) -/

/-- `L i`, `R i` are the halves before round i, for n rounds over the entries p. -/
def FollowsRounds (p : Nat → Fin 18) (n : Nat) (L R : Nat → Word) : Prop :=
  ∀ i < n, L (i + 1) = R i ^^^ roundF c (roundF c (L i ^^^ pEntry c (p i))) ∧ R (i + 1) = L i ^^^ pEntry c (p i)

theorem FollowsRounds.foldl_eq {p : Nat → Fin 18} {n : Nat} {L R : Nat → Word} (h : FollowsRounds c p n L R) :
    ((List.range n).map p).foldl (feistelRound c) ⟨L 0, R 0⟩ = ⟨L n, R n⟩ := by
  induction n with
  | zero => rfl
  | succ n ih =>
    obtain ⟨hL, hR⟩ := h n (Nat.lt_succ_self n)
    have ih := ih fun i hi => h i (Nat.lt_succ_of_lt hi)
    rw [List.range_succ, List.map_append, List.foldl_append, ih, hL, hR]
    rfl

theorem FollowsRounds.transform_eq {p : Nat → Fin 18} {n : Nat} {L R : Nat → Word} (h : FollowsRounds c p n L R) {x : Block}
    (hL : L 0 = hi32 x) (hR : R 0 = lo32 x) (wl wr : Fin 18) :
    transform c ((List.range n).map p) wl wr x = joinHalves (R n ^^^ pEntry c wl) (L n ^^^ pEntry c wr) := by
  rw [Machine.transform_eq, ← hL, ← hR, h.foldl_eq, whiten_eq]

end

/-- Settles O23: both transforms run their rounds in the order of their entries. -/
theorem transformsFollowTheirRoundTrace : Obligations.TransformsFollowTheirRoundTrace := by
  intro c x L R hL hR
  refine ⟨fun h => ?_, fun h => ?_⟩
  · have henc : FollowsRounds c encEntry 16 L R := fun i hi => by
      rw [encEntry_of_lt (by omega)]
      exact h ⟨i, hi⟩
    exact henc.transform_eq c hL hR 17 16
  · have hdec : FollowsRounds c decEntry 16 L R := fun i hi => by
      rw [decEntry, encEntry_of_lt (by omega)]
      exact h ⟨i, hi⟩
    exact hdec.transform_eq c hL hR 0 1

/-! ## The inverse law (R108)

Decryption runs on the whitened halves. By the first lemma its round with entry k + 2 takes the whitened halves after encryption's
round k to the whitened halves before it, so the rounds of decryption peel off those of encryption one by one. -/

section
variable (c : Config)

theorem feistelRound_whiten_feistelRound (i j k : Fin 18) (h : Halves) :
    feistelRound c (whiten c k j (feistelRound c h i)) k = whiten c j i h := by
  obtain ⟨l, r⟩ := h
  have hl : l ^^^ pEntry c i ^^^ pEntry c k ^^^ pEntry c k = l ^^^ pEntry c i := by simp
  have hr (mix : Word) : r ^^^ mix ^^^ pEntry c j ^^^ mix = r ^^^ pEntry c j := by simp [word_xor_right_comm r mix]
  rw [feistelRound_eq, whiten_eq, feistelRound_eq, whiten_eq, hl, hr]

theorem whiten_whiten (i j : Fin 18) (h : Halves) : whiten c i j (whiten c j i h) = h := by
  simp [whiten]

theorem foldl_reverse_whiten_foldl (p : Nat → Fin 18) (n : Nat) (h : Halves) :
    ((List.range n).reverse.map fun i => p (i + 2)).foldl (feistelRound c)
        (whiten c (p (n + 1)) (p n) (((List.range n).map p).foldl (feistelRound c) h)) =
      whiten c (p 1) (p 0) h := by
  induction n with
  | zero => rfl
  | succ n ih =>
    simp only [List.range_succ, List.reverse_append, List.reverse_singleton, List.singleton_append, List.map_cons,
      List.map_append, List.map_nil, List.foldl_cons, List.foldl_append, List.foldl_nil, feistelRound_whiten_feistelRound]
    exact ih

/-- A transform over any entries p is undone by the transform that takes them backwards. -/
theorem transform_reverse_transform (p : Nat → Fin 18) (n : Nat) (x : Block) :
    transform c ((List.range n).reverse.map fun i => p (i + 2)) (p 0) (p 1)
      (transform c ((List.range n).map p) (p (n + 1)) (p n) x) = x := by
  rw [transform_eq, halves_transform, foldl_reverse_whiten_foldl, whiten_whiten, join_hi_lo]

theorem decrypt_encrypt (x : Block) : decrypt c (encrypt c x) = x := by
  rw [decrypt_eq_transform_reverse_encEntry, encrypt_eq_transform_encEntry, transform_reverse_transform]

theorem encrypt_decrypt (x : Block) : encrypt c (decrypt c x) = x := by
  rw [encrypt_eq_transform_reverse_decEntry, decrypt_eq_transform_decEntry, transform_reverse_transform]

end

/-- Settles O24: each transform takes the entries of the other backwards. -/
theorem decryptInvertsEncrypt : Obligations.DecryptInvertsEncrypt :=
  fun c x => ⟨decrypt_encrypt c x, encrypt_decrypt c x⟩

/-! ## The reversed P-array (R109) -/

section
variable (c : Config)

@[simp] theorem pEntry_reversedP (i : Fin 18) : pEntry (reversedP c) i = pEntry c (oppositeEntry i) := by
  simp [pEntry, reversedP, oppositeEntry]

@[simp] theorem roundF_reversedP : roundF (reversedP c) = roundF c := by
  funext w; simp only [roundF, sEntry, reversedP]

theorem feistelRound_reversedP :
    feistelRound (reversedP c) = fun h i => feistelRound c h (oppositeEntry i) := by
  funext h i; simp [feistelRound]

theorem transform_reversedP (rounds : List (Fin 18)) (wl wr : Fin 18) (x : Block) :
    transform (reversedP c) rounds wl wr x =
      transform c (rounds.map oppositeEntry) (oppositeEntry wl) (oppositeEntry wr) x := by
  simp [transform, List.foldl_map, feistelRound_reversedP]

theorem decrypt_eq_encrypt_reversedP (x : Block) : decrypt c x = encrypt (reversedP c) x :=
  (transform_reversedP c encRounds 17 16 x).symm

/-- Reversing a P-array that equals its reverse changes nothing. -/
theorem reversedP_eq_self (h : ∀ i, pEntry c i = pEntry c (oppositeEntry i)) : reversedP c = c := by
  have hP : (reversedP c).P = c.P := Vector.ext fun i hi => (pEntry_reversedP c ⟨i, hi⟩).trans (h ⟨i, hi⟩).symm
  exact congrArg (fun P => { c with P := P }) hP

end

/-- Settles O25: a transform under the reversed P-array reads the opposite entries. -/
theorem decryptIsEncryptUnderReversedP : Obligations.DecryptIsEncryptUnderReversedP := by
  refine ⟨decrypt_eq_encrypt_reversedP, fun c hpal x => ?_⟩
  rw [decrypt_eq_encrypt_reversedP, reversedP_eq_self c hpal]

/-! ## Zero S-boxes (R103, R110) -/

theorem xor_xorP (c : Config) (is : List (Fin 18)) (w : Word) :
    w ^^^ xorP c is = is.foldl (fun w i => w ^^^ pEntry c i) w := by
  have hassoc (v : Word) :
      w ^^^ is.foldl (fun w i => w ^^^ pEntry c i) v = is.foldl (fun w i => w ^^^ pEntry c i) (w ^^^ v) := by
    induction is generalizing v with
    | nil => rfl
    | cons i is ih => rw [List.foldl_cons, ih, List.foldl_cons, BitVec.xor_assoc]
  simp [xorP, hassoc]

/-- The order of the entries does not matter. -/
theorem xorP_reverse (c : Config) (is : List (Fin 18)) : xorP c is.reverse = xorP c is :=
  (List.reverse_perm is).foldl_eq' (fun _ _ _ _ _ => word_xor_right_comm _ _ _) 0

section
variable {c : Config} (h : ZeroSBoxes c)
include h

/-- Without mixing, a round XORs its entry into L and swaps. -/
theorem feistelRound_of_zeroSBoxes (l r : Word) (i : Fin 18) : feistelRound c ⟨l, r⟩ i = ⟨r, l ^^^ pEntry c i⟩ := by
  simp [feistelRound_eq, roundF_of_zeroSBoxes h]

theorem encrypt_of_zeroSBoxes (l r : Word) :
    encrypt c (joinHalves l r) =
      joinHalves (r ^^^ xorP c [1, 3, 5, 7, 9, 11, 13, 15] ^^^ pEntry c 17)
        (l ^^^ xorP c [0, 2, 4, 6, 8, 10, 12, 14] ^^^ pEntry c 16) := by
  simp only [encrypt, transform_eq, encRounds, hi32_join, lo32_join, List.foldl, feistelRound_of_zeroSBoxes h, whiten_eq,
    xor_xorP]

theorem decrypt_of_zeroSBoxes (l r : Word) :
    decrypt c (joinHalves l r) =
      joinHalves (r ^^^ xorP c [0, 2, 4, 6, 8, 10, 12, 14, 16]) (l ^^^ xorP c [1, 3, 5, 7, 9, 11, 13, 15, 17]) := by
  have heven : xorP c [0, 2, 4, 6, 8, 10, 12, 14, 16] = xorP c [16, 14, 12, 10, 8, 6, 4, 2, 0] :=
    xorP_reverse c [16, 14, 12, 10, 8, 6, 4, 2, 0]
  have hodd : xorP c [1, 3, 5, 7, 9, 11, 13, 15, 17] = xorP c [17, 15, 13, 11, 9, 7, 5, 3, 1] :=
    xorP_reverse c [17, 15, 13, 11, 9, 7, 5, 3, 1]
  rw [heven, hodd]
  simp only [decrypt, transform_eq, decRounds, hi32_join, lo32_join, List.foldl, feistelRound_of_zeroSBoxes h, whiten_eq,
    xor_xorP]

end

/-- Settles O26: without mixing the rounds only XOR entries into the halves. -/
theorem zeroSBoxClosedForms : Obligations.ZeroSBoxClosedForms := fun _ h =>
  ⟨roundF_of_zeroSBoxes h, fun l r => ⟨encrypt_of_zeroSBoxes h l r, decrypt_of_zeroSBoxes h l r⟩⟩

/-! ## The commands (R111 to R113) -/

section
variable {w : BitVec 8} (hlen : lenField w = 0) (d : Block)
include hlen

theorem decode_enc (hop : opField w = 0x1) : decode ⟨w, d⟩ = .ok (.enc d) := by
  simp [decode, hop, hlen, lenZero, blockOperand]

theorem decode_dec (hop : opField w = 0x2) : decode ⟨w, d⟩ = .ok (.dec d) := by
  simp [decode, hop, hlen, lenZero, blockOperand]

theorem decode_frnd_of_len (hop : opField w = 0x3) : decode ⟨w, d⟩ = .ok (.frnd (lo32 d)) := by
  simp [decode_frnd d hop, hlen, lenZero, wordOperand]

end

theorem exec_enc_of_idle {s : State} (h : s.phase = .idle) (x : Block) :
    exec (.enc x) s = .next (respond .ok (encrypt s.cfg x) 8 s) := by
  rw [exec, execEnc, onAccept_idle h]

theorem exec_dec_of_idle {s : State} (h : s.phase = .idle) (x : Block) :
    exec (.dec x) s = .next (respond .ok (decrypt s.cfg x) 8 s) := by
  rw [exec, execDec, onAccept_idle h]

theorem zext64_eq_joinHalves (w : Word) : zext64 w = joinHalves 0 w := by
  apply BitVec.eq_of_toNat_eq
  simp [zext64, joinHalves_toNat]; omega

theorem exec_frnd_of_idle {s : State} (h : s.phase = .idle) (w : Word) :
    exec (.frnd w) s = .next (respond .ok (joinHalves 0 (roundF s.cfg w)) 8 s) := by
  rw [exec, execFrnd, onAccept_idle h, zext64_eq_joinHalves]

/-- With P zero as well, encryption only swaps the halves (R111). -/
theorem encrypt_of_zeroSBoxes_of_zeroP {c : Config} (hS : ZeroSBoxes c) (hP : c.P = Vector.replicate 18 0) (l r : Word) :
    encrypt c (joinHalves l r) = joinHalves r l := by
  have hentry (i : Fin 18) : pEntry c i = 0 := by simp [pEntry, hP]
  simp [encrypt_of_zeroSBoxes hS, xorP, hentry]

theorem encrypt_cfgB_example : encrypt cfgB 0x0123456789ABCDEF = 0x89A9674501221032 := by decide +kernel

/-- Settles O6: the command's arm, the closed form under zero S-boxes, and two evaluations under CFG_B. -/
theorem encAnswersTheEncryptedBlock : Obligations.EncAnswersTheEncryptedBlock := by
  refine ⟨fun s x hidle => ⟨?_, exec_enc_of_idle hidle x⟩, ?_, ?_, encrypt_cfgB_example⟩
  · exact decode_enc (by decide) x (by decide)
  · exact fun c l r hS hP => encrypt_of_zeroSBoxes_of_zeroP hS hP l r
  · decide +kernel

/-- Settles O7: the command's arm; the example is ENC's, by the inverse law. -/
theorem decAnswersTheDecryptedBlock : Obligations.DecAnswersTheDecryptedBlock := by
  refine ⟨fun s x hidle => ⟨?_, exec_dec_of_idle hidle x⟩, ?_⟩
  · exact decode_dec (by decide) x (by decide)
  · rw [← encrypt_cfgB_example, decrypt_encrypt]

/-- Settles O8: the command's arm, F under zero S-boxes, and an evaluation under CFG_S. -/
theorem frndAnswersOneRoundFunction : Obligations.FrndAnswersOneRoundFunction := by
  refine ⟨fun s d hidle => ⟨?_, exec_frnd_of_idle hidle (lo32 d)⟩, ?_, ?_⟩
  · exact decode_frnd_of_len (by decide) d (by decide)
  · exact fun c w h => roundF_of_zeroSBoxes h w
  · decide +kernel

end Sys2Proof.Machine

/-! Proofs for the block codec family (41_block_codec.md): Pack and Strip (R130 to R135), and the commands that expose them
(R136 to R138). Strip is the library's `List.rdropWhile` on the bytes, and `tz` counts what `List.rtakeWhile` finds. -/

namespace Sys2Proof.Machine
open Sys2Proof.Claim

/-! ## Trailing zero bytes of a list -/

theorem rtakeWhile_zero_eq_replicate (b : List Byte) :
    b.rtakeWhile (· == 0#8) = List.replicate (b.rtakeWhile (· == 0#8)).length 0#8 :=
  List.eq_replicate_of_mem fun _ hc => by simpa using List.mem_rtakeWhile_imp hc

theorem rdropWhile_append_zeros (b : List Byte) (k : Nat) :
    (b ++ List.replicate k 0#8).rdropWhile (· == 0#8) = b.rdropWhile (· == 0#8) := by
  induction k with
  | zero => simp
  | succ k ih => rw [List.replicate_succ', ← List.append_assoc, List.rdropWhile_concat_pos _ _ _ rfl, ih]

theorem rdropWhile_zero_eq_self_iff {b : List Byte} : b.rdropWhile (· == 0#8) = b ↔ b.getLast? ≠ some 0#8 := by
  rw [List.rdropWhile_eq_self_iff]
  by_cases hb : b = []
  · simp [hb]
  · simp [hb, List.getLast?_eq_some_getLast hb]

/-! ## Strip (R133) -/

theorem tz_eq_length_rtakeWhile (x : Block) : tz x = ((be8 x).rtakeWhile (· == 0#8)).length := by
  simp [tz, List.rtakeWhile]

theorem strip_eq_rdropWhile (x : Block) : strip x = (be8 x).rdropWhile (· == 0#8) := by
  have hrdrop : strip x = (be8 x).rdrop (tz x) := by simp [strip, List.rdrop]
  have hsplit : be8 x = (be8 x).rdropWhile (· == 0#8) ++ (be8 x).rtakeWhile (· == 0#8) := by simp
  rw [hrdrop, tz_eq_length_rtakeWhile]
  nth_rw 1 [hsplit]
  exact List.rdrop_append_length

theorem strip_append_zeros (x : Block) : strip x ++ List.replicate (tz x) 0#8 = be8 x := by
  rw [strip_eq_rdropWhile, tz_eq_length_rtakeWhile, ← rtakeWhile_zero_eq_replicate, List.rdropWhile_append_rtakeWhile]

theorem drop_be8_eq_zeros (x : Block) : (be8 x).drop (8 - tz x) = List.replicate (tz x) 0#8 := by
  have h : strip x ++ (be8 x).drop (8 - tz x) = be8 x := List.take_append_drop _ _
  exact List.append_cancel_left (h.trans (strip_append_zeros x).symm)

@[simp] theorem strip_length (x : Block) : (strip x).length = 8 - tz x := by simp [strip]

theorem strip_getLast?_ne_zero (x : Block) : (strip x).getLast? ≠ some 0#8 := by
  rw [strip_eq_rdropWhile]
  exact rdropWhile_zero_eq_self_iff.mp (List.rdropWhile_idempotent _ _)

theorem be8_zero : be8 0 = List.replicate 8 0#8 := by decide

theorem strip_eq_nil_iff {x : Block} : strip x = [] ↔ x = 0 := by
  rw [strip_eq_rdropWhile, List.rdropWhile_eq_nil_iff]
  constructor
  · intro h
    apply be8_injective
    rw [be8_zero, List.eq_replicate_iff]
    exact ⟨be8_length x, fun c hc => by simpa using h c hc⟩
  · rintro rfl
    rw [be8_zero]
    simp

/-- Settles O30: what Strip drops is the longest run of zero bytes at the end. -/
theorem stripRemovesExactlyTheTrailingZeros : Obligations.StripRemovesExactlyTheTrailingZeros :=
  ⟨fun x => ⟨strip_append_zeros x, strip_getLast?_ne_zero x, strip_length x, strip_eq_nil_iff⟩, by decide, by decide⟩

/-! ## Pack (R130, R131) and its laws with Unpack and Strip (R135) -/

@[simp] theorem be8_pack (b : List Byte) : be8 (pack b) = padTo8 b := be8_beVal (padTo8_length b)

theorem be8_pack_of_le {b : List Byte} (h : b.length ≤ 8) : be8 (pack b) = b ++ List.replicate (8 - b.length) 0#8 := by
  rw [be8_pack, padTo8_of_le h]

theorem pack_nil : pack [] = 0 := by decide

/-- Settles O29: Pack is read back as the padded sequence. -/
theorem packPadsOnTheRight : Obligations.PackPadsOnTheRight := ⟨fun _ h => be8_pack_of_le h, pack_nil⟩

theorem unpack_pack {b : List Byte} (h : b.length = 8) : unpack (pack b) = b := by
  rw [unpack, be8_pack, padTo8_of_eq h]

theorem pack_unpack (x : Block) : pack (unpack x) = x :=
  be8_injective (unpack_pack (be8_length x))

theorem strip_pack {b : List Byte} (h : b.length ≤ 8) : strip (pack b) = b.rdropWhile (· == 0#8) := by
  rw [strip_eq_rdropWhile, be8_pack_of_le h, rdropWhile_append_zeros]

theorem strip_pack_eq_self_iff {b : List Byte} (h : b.length ≤ 8) : strip (pack b) = b ↔ b.getLast? ≠ some 0#8 := by
  rw [strip_pack h, rdropWhile_zero_eq_self_iff]

/-- Settles O28: padding adds only zero bytes at the end, and Strip drops those with the chunk's own. -/
theorem codecLaws : Obligations.CodecLaws :=
  ⟨fun _ h => unpack_pack h, pack_unpack, fun _ _ h => ⟨strip_pack_eq_self_iff h, strip_pack h⟩, by decide, by decide⟩

/-! ## The operand of PACK, packed: the low bits of DATA cleared (R136) -/

/-- A byte that lies below the bit k is zero when the bits below k are cleared. -/
theorem byteOf_and_high_of_lt (d : Block) {j k : Nat} (h : 64 - 8 * j ≤ k) (hj : j < 8) :
    byteOf (d &&& (BitVec.allOnes 64 <<< k)) j = 0#8 := by
  apply BitVec.eq_of_getLsbD_eq
  intro i hi
  have hk : 56 - 8 * j + i < k := by omega
  simp [byteOf, hk]

theorem drop_be8_and_high (n : Nat) (d : Block) :
    (be8 (d &&& (BitVec.allOnes 64 <<< (64 - 8 * n)))).drop n = List.replicate (8 - n) 0#8 := by
  apply List.ext_getElem (by simp)
  intro i hi _
  have hi8 : i < 8 - n := by simpa using hi
  have hbyte := byteOf_and_high_of_lt d (j := n + i) (k := 64 - 8 * n) (by omega) (by omega)
  simpa [be8] using hbyte

theorem bytesOperand_length {n : Nat} (hn : n ≤ 8) (d : Block) : (bytesOperand n d).length = n := by
  simp [bytesOperand, hn]

theorem pack_bytesOperand {n : Nat} (hn : n ≤ 8) (d : Block) :
    pack (bytesOperand n d) = d &&& (BitVec.allOnes 64 <<< (64 - 8 * n)) := by
  apply be8_injective
  have hlen := bytesOperand_length hn d
  calc be8 (pack (bytesOperand n d))
      = bytesOperand n d ++ List.replicate (8 - n) 0#8 := by rw [be8_pack_of_le (hlen.trans_le hn), hlen]
    _ = bytesOperand n (d &&& (BitVec.allOnes 64 <<< (64 - 8 * n))) ++
          (be8 (d &&& (BitVec.allOnes 64 <<< (64 - 8 * n)))).drop n := by
        rw [bytesOperand_and_high, drop_be8_and_high]
    _ = be8 (d &&& (BitVec.allOnes 64 <<< (64 - 8 * n))) := List.take_append_drop _ _

theorem bytesOperand_zero (d : Block) : bytesOperand 0 d = [] := rfl

theorem bytesOperand_eight (d : Block) : bytesOperand 8 d = unpack d :=
  List.take_of_length_le (be8_length d).le

/-! ## The bytes of a response (R55) -/

theorem Response.bytes_of_len_eight (st : Status) (x : Block) : Response.bytes ⟨st, x, 8⟩ = unpack x :=
  List.take_of_length_le (be8_length x).le

theorem keptLen_code_toNat (x : Block) : (BitVec.ofNat 4 (8 - tz x)).toNat = 8 - tz x := by
  rw [BitVec.toNat_ofNat]; omega

theorem Response.bytes_of_keptLen (st : Status) (x : Block) :
    Response.bytes ⟨st, x, BitVec.ofNat 4 (8 - tz x)⟩ = strip x := by
  simp only [Response.bytes, keptLen_code_toNat, strip]

end Sys2Proof.Machine

namespace Sys2Proof
open Machine Claim

/-! ## The words of the codec's commands (R71, R73) -/

/-- A LEN below 16 added to a word of LEN 0 is its LEN and leaves its opcode. -/
theorem fields_add_len {w : BitVec 8} (hw : lenField w = 0) {n : Nat} (hn : n < 16) :
    opField (w + BitVec.ofNat 8 n) = opField w ∧ (lenField (w + BitVec.ofNat 8 n)).toNat = n := by
  have hlow : w.toNat % 16 = 0 := by simpa [lenField] using congrArg BitVec.toNat hw
  have hlt := w.isLt
  constructor
  · apply BitVec.eq_of_toNat_eq
    simp [opField, Nat.shiftRight_eq_div_pow]; omega
  · simp [lenField]; omega

section
variable {w : BitVec 8} (hlen : lenField w = 0) (d : Block)
include hlen

theorem decode_unpack (hop : opField w = 0x5) : decode ⟨w, d⟩ = .ok (.unpack d) := by
  simp [decode, hop, hlen, lenZero, blockOperand]

theorem decode_ustrip (hop : opField w = 0x6) : decode ⟨w, d⟩ = .ok (.ustrip d) := by
  simp [decode, hop, hlen, lenZero, blockOperand]

theorem decode_pack_add_len (hop : opField w = 0x4) {n : Nat} (hn : n ≤ 8) :
    decode ⟨w + BitVec.ofNat 8 n, d⟩ = .ok (.pack (bytesOperand n d)) := by
  obtain ⟨hop', hlen'⟩ := fields_add_len hlen (n := n) (by omega)
  exact decode_pack_of_len d (hop'.trans hop) hlen' hn

theorem decode_add_len_above_eight (hop : opField w = 0x4 ∨ opField w = 0x7) {n : Nat} (h9 : 9 ≤ n) (h15 : n ≤ 15) :
    decode ⟨w + BitVec.ofNat 8 n, d⟩ = .error .lenAboveEight := by
  obtain ⟨hop', hlen'⟩ := fields_add_len hlen (n := n) (by omega)
  exact decode_lenAboveEight d (hop'.symm ▸ hop) (by omega)

end

end Sys2Proof

namespace Sys2Proof.Machine
open Sys2Proof.Claim

/-! ## The commands (R136 to R138) -/

section
variable {s : State} (h : s.phase = .idle)
include h

theorem exec_pack_of_idle (b : List Byte) : exec (.pack b) s = .next (respond .ok (pack b) 8 s) := by
  rw [exec, execPack, onAccept_idle h]

theorem exec_unpack_of_idle (x : Block) : exec (.unpack x) s = .next (respond .ok x 8 s) := by
  rw [exec, execUnpack, onAccept_idle h]

theorem exec_ustrip_of_idle (x : Block) :
    exec (.ustrip x) s = .next (respond .ok x (BitVec.ofNat 4 (8 - tz x)) s) := by
  rw [exec, execUstrip, onAccept_idle h, keptLen_val]

end

/-- Settles O9: the command's arm answers Pack, which is DATA with its low bits cleared. -/
theorem packAnswersThePaddedChunk : Obligations.PackAnswersThePaddedChunk := by
  refine ⟨fun s n d hidle hn => ⟨?_, ?_, pack_bytesOperand hn d⟩, ?_, fun d => ⟨?_, ?_⟩, by decide⟩
  · exact decode_pack_add_len (by decide) d (by decide) hn
  · rw [exec_pack_of_idle hidle, pack_bytesOperand hn, respond]
  · exact fun n d h9 h15 => decode_add_len_above_eight (by decide) d (.inl (by decide)) h9 h15
  · rw [bytesOperand_zero, pack_nil]
  · rw [bytesOperand_eight, pack_unpack]

/-- Settles O10: the command's arm, and a length of 8 keeps every byte. -/
theorem unpackAnswersAllEightBytes : Obligations.UnpackAnswersAllEightBytes :=
  fun _ x hidle => ⟨decode_unpack (by decide) x (by decide), exec_unpack_of_idle hidle x, Response.bytes_of_len_eight .ok x⟩

/-- Settles O11: the command's arm, and the bytes on each side of the length it answers. -/
theorem ustripAnswersTheStrippedLength : Obligations.UstripAnswersTheStrippedLength := by
  refine ⟨fun s x hidle => ⟨?_, exec_ustrip_of_idle hidle x, ?_, drop_be8_eq_zeros x⟩, ?_⟩
  · exact decode_ustrip (by decide) x (by decide)
  · exact Response.bytes_of_keptLen .ok x
  · decide

end Sys2Proof.Machine

/-! Proofs for the ECB processor family (42_ecb_processor.md): the per-chunk commands and the ciphertext value of a chunk (R152, R153,
R165, R166), single steps of a run (R164, R170), the round trip of a stream (R172), and the completed run (R171, R173). -/

namespace Sys2Proof.Machine
open Sys2Proof.Claim

/-! ## One step of a run (R158, R169) -/

/-- A step with a token on offer in RUN takes it. -/
theorem step_of_feeds {s : State} {tok : Token} {rest : List Token} (h : Feeds s tok rest) :
    step s = takeToken tok (withInput rest (passRst s)) := by
  obtain ⟨hrun, hrst, hinput⟩ := h
  simp [step, stepPhase, stepRun, inRead, hrun, hrst, hinput]

theorem takeEos_of_no_chunk {s : State} (h : s.cnt = 0) : takeEos s = .next (respond .ok 0 0 s) := if_pos h

theorem takeEos_of_chunk {s : State} (h0 : s.cnt.val ≠ 0) (h8 : s.cnt.val < 8) :
    takeEos s = processBlock s.cnt.val (markFinal s) := by
  have hne : s.cnt ≠ 0 := fun h => h0 (congrArg Fin.val h)
  rw [takeEos, if_neg hne, if_pos h8]

/-- Settles O35: the step takes the Eos, and with no chunk held that answers. -/
theorem eosWithoutAChunkEndsTheRun : Obligations.EosWithoutAChunkEndsTheRun := by
  intro s rest hfeeds hcnt
  rw [step_of_feeds hfeeds]
  exact takeEos_of_no_chunk hcnt

/-- A step with a byte on offer in EMIT that the sink accepts writes it. -/
theorem step_of_emits_ok {s : State} {b : Byte} {rest : List Answer} (h : Emits s b .ok rest) :
    step s = .next (emitOk (Fin.ofNat 9 (s.oidx.val + 1)) (wrote b (withAnswers rest (passRst s)))) := by
  obtain ⟨hemit, hrst, hlt, hbyte, hanswers⟩ := h
  have hget : s.obuf[s.oidx.val] = some b := (Vector.getElem?_eq_some_iff.mp hbyte).2
  simp [step, stepPhase, stepEmit, outWrite, hemit, hrst, hlt, hget, hanswers]

/-- The count of emitted bytes after one more, while one is left. -/
theorem oidx_succ_val {s : State} (h : s.oidx.val < s.olen.val) : (Fin.ofNat 9 (s.oidx.val + 1)).val = s.oidx.val + 1 := by
  simp only [Fin.val_ofNat]; omega

/-- A byte the sink took: more of the block is left, or EndBlock reads on, or it answers. -/
theorem emitOk_cases (n : Fin 9) (s : State) :
    (n ≠ s.olen ∧ emitOk n s = withOidx n s) ∨
      (n = s.olen ∧ s.final = false ∧ emitOk n s = { withOidx n s with phase := .run }) ∨
      (n = s.olen ∧ s.final = true ∧ emitOk n s = respond .ok 0 0 (withOidx n s)) := by
  by_cases hlast : n = s.olen
  · obtain ⟨heq, hfinal⟩ | ⟨heq, hfinal⟩ := endBlock_cases (withOidx n s)
    · exact .inr (.inl ⟨hlast, hfinal, (emitOk_last hlast).trans heq⟩)
    · exact .inr (.inr ⟨hlast, hfinal, (emitOk_last hlast).trans heq⟩)
  · exact .inl ⟨hlast, emitOk_more hlast⟩

@[simp] theorem emitOk_oidx (n : Fin 9) (s : State) : (emitOk n s).oidx = n := by
  obtain ⟨-, heq⟩ | ⟨-, -, heq⟩ | ⟨-, -, heq⟩ := emitOk_cases n s <;> rw [heq] <;> rfl

/-- Besides `oidx` a byte the sink took changes at most the phase and the response register. -/
theorem emitOk_frame (n : Fin 9) (s : State) :
    emitOk n s = { s with
      oidx := (emitOk n s).oidx, phase := (emitOk n s).phase, rspStatus := (emitOk n s).rspStatus,
      rspData := (emitOk n s).rspData, rspLen := (emitOk n s).rspLen } := by
  obtain ⟨-, heq⟩ | ⟨-, -, heq⟩ | ⟨-, -, heq⟩ := emitOk_cases n s <;> rw [heq] <;> rfl

/-- The response register is written only at the end of a final block (R168). -/
theorem emitOk_phase_response (n : Fin 9) (s : State) :
    (n ≠ s.olen → (emitOk n s).phase = s.phase) ∧
    (n = s.olen → s.final = false → (emitOk n s).phase = .run) ∧
    (n = s.olen → s.final = true → (emitOk n s).phase = .resp ∧ (emitOk n s).rspStatus = .ok ∧
      (emitOk n s).rspData = 0 ∧ (emitOk n s).rspLen = 0) ∧
    ((emitOk n s).phase ≠ .resp → (emitOk n s).rspStatus = s.rspStatus ∧ (emitOk n s).rspData = s.rspData ∧
      (emitOk n s).rspLen = s.rspLen) := by
  obtain ⟨hmore, heq⟩ | ⟨hlast, hfinal, heq⟩ | ⟨hlast, hfinal, heq⟩ := emitOk_cases n s <;> rw [heq]
  · simp [hmore]
  · simp [hlast, hfinal]
  · simp [hlast, hfinal]

/-- Settles O37: before the last byte only `oidx` moves, and after it EndBlock decides on `final`. -/
theorem acceptedByteIsWritten : Obligations.AcceptedByteIsWritten := by
  intro s b rest hemits
  obtain ⟨hemit, -, hlt, -, -⟩ := id hemits
  obtain ⟨hmore, hread, hanswer, hregister⟩ :=
    emitOk_phase_response (Fin.ofNat 9 (s.oidx.val + 1)) (wrote b (withAnswers rest (passRst s)))
  refine ⟨_, step_of_emits_ok hemits, ?_, emitOk_frame _ _, ?_, ?_, ?_, hregister⟩
  · rw [emitOk_oidx, oidx_succ_val hlt]
  · rw [emitOk_oidx]; exact fun hne => (hmore hne).trans hemit
  · rw [emitOk_oidx]; exact hread
  · rw [emitOk_oidx]; exact hanswer

/-! ## The ciphertext value of a chunk (R165, R166) -/

section
variable {c : Config} {b : List Byte}

theorem ctValue_of_full (h : b.length = 8) : ctValue c b = beVal b := if_pos h

theorem ctValue_of_zextHigh (hb : b.length < 8) (h : c.shortCtMode = .zextHigh) : ctValue c b = beVal b := by
  simp [ctValue, hb.ne, h]

theorem ctValue_of_padLow (hb : b.length < 8) (h : c.shortCtMode = .padLow) : ctValue c b = pack b := by
  simp [ctValue, hb.ne, h]

end

/-- Zero bytes in front do not change the value. -/
theorem beVal_zeros_append (k : Nat) (b : List Byte) : beVal (List.replicate k 0#8 ++ b) = beVal b := by
  induction k with
  | zero => rfl
  | succ k ih => exact ih

theorem be8_beVal_of_le {b : List Byte} (h : b.length ≤ 8) : be8 (beVal b) = List.replicate (8 - b.length) 0#8 ++ b := by
  rw [← beVal_zeros_append (8 - b.length), be8_beVal (by simp [h])]

/-- Settles O31: of 8 bytes the value reads back as the bytes; of fewer SHORT_CT_MODE decides on which side the zeros stand. -/
theorem ciphertextValueOfAChunk : Obligations.CiphertextValueOfAChunk := by
  refine ⟨fun c b h => ?_, fun c b h hmode => ?_, fun c b h hmode => ?_⟩
  · rw [ctValue_of_full h, be8_beVal h]
  · rw [ctValue_of_zextHigh h hmode, be8_beVal_of_le h.le]
  · rw [ctValue_of_padLow h hmode, be8_pack_of_le h.le]

/-! ## The per-chunk commands (R152, R153) -/

theorem decode_dchunk {w : BitVec 8} (hop : opField w = 0x8) (hlen : lenField w = 0) (d : Block) :
    decode ⟨w, d⟩ = .ok (.dchunk d) := by
  simp [decode, hop, hlen, lenZero, blockOperand]

theorem decode_echunk_add_len {w : BitVec 8} (hop : opField w = 0x7) (hlen : lenField w = 0) (d : Block) {n : Nat}
    (hn : n ≤ 8) : decode ⟨w + BitVec.ofNat 8 n, d⟩ = .ok (.echunk (bytesOperand n d)) := by
  obtain ⟨hop', hlen'⟩ := fields_add_len hlen (n := n) (by omega)
  exact decode_echunk_of_len d (hop'.trans hop) hlen' hn

theorem exec_echunk_of_idle {s : State} (h : s.phase = .idle) (b : List Byte) :
    exec (.echunk b) s = .next (respond .ok (encrypt s.cfg (pack b)) 8 s) := by
  rw [exec, execEchunk, onAccept_idle h]

theorem exec_dchunk_of_idle {s : State} (h : s.phase = .idle) (v : Block) :
    exec (.dchunk v) s = .next (respond .ok (decrypt s.cfg v) (BitVec.ofNat 4 (8 - tz (decrypt s.cfg v))) s) := by
  rw [exec, execDchunk, onAccept_idle h, keptLen_val]

theorem encrypt_cfgB_chunk_example : encrypt cfgB 0x4142430000000000 = 0x0002AAAA41431655 := by decide +kernel

/-- Settles O12: the command's arm; a length of 8 keeps every byte of the encrypted chunk. -/
theorem echunkAnswersTheEncryptedChunk : Obligations.EchunkAnswersTheEncryptedChunk := by
  refine ⟨fun s n d hidle hn => ⟨?_, exec_echunk_of_idle hidle _, Response.bytes_of_len_eight .ok _⟩, ?_, ?_, ?_⟩
  · exact decode_echunk_add_len (by decide) (by decide) d hn
  · exact fun n d h9 h15 => decode_add_len_above_eight (by decide) d (.inr (by decide)) h9 h15
  · exact fun c d => by rw [bytesOperand_zero, pack_nil]
  · have hpack : pack (bytesOperand 3 0x4142430000000000) = 0x4142430000000000 := by decide
    rw [hpack, encrypt_cfgB_chunk_example]

/-- Settles O13: the command's arm; the length kept is Strip's, and the example is ECHUNK's, by the inverse law. -/
theorem dchunkAnswersTheDecryptedChunk : Obligations.DchunkAnswersTheDecryptedChunk := by
  refine ⟨fun s v hidle => ⟨?_, exec_dchunk_of_idle hidle v, Response.bytes_of_keptLen .ok _, fun hzero => ?_⟩, ?_, ?_⟩
  · exact decode_dchunk (by decide) (by decide) v
  · rw [hzero]; decide
  · rw [← encrypt_cfgB_chunk_example, decrypt_encrypt]
  · decide

/-! ## The round trip of a stream (R172) -/

/-- Chunks of 8 bytes are cut out of their concatenation again. -/
theorem chunksOf_flatMap {α : Type} (f : α → List Byte) (hf : ∀ a, (f a).length = 8) (l : List α) :
    chunksOf (l.flatMap f) = l.map f := by
  induction l with
  | nil => exact chunksOf_nil
  | cons a l ih => rw [List.flatMap_cons, chunksOf_full (hf a), ih, List.map_cons]

/-- The chunks of a stream are its bytes in order, none longer than 8 (R58). -/
theorem chunksOf_partition (m : List Byte) : (chunksOf m).flatten = m ∧ ∀ b ∈ chunksOf m, b.length ≤ 8 := by
  induction m using chunk_induction with
  | nil => simp [chunksOf_nil]
  | short s h1 h7 =>
    rw [chunksOf_short ⟨h1, h7⟩]
    exact ⟨List.flatten_singleton, by simp; omega⟩
  | full b rest hb ih =>
    obtain ⟨hflat, hlen⟩ := ih
    rw [chunksOf_full hb]
    exact ⟨by rw [List.flatten_cons, hflat], by simpa [hb] using hlen⟩

theorem ctValue_encChunk (c c' : Config) (b : List Byte) : ctValue c (encChunk c' b) = encrypt c' (pack b) := by
  rw [ctValue_of_full (encChunk_length c' b), encChunk, unpack, beVal_be8]

/-- The cipher does not read SHORT_CT_MODE. -/
theorem decrypt_withShortCtMode (c : Config) (sm : ShortCtMode) : decrypt { c with shortCtMode := sm } = decrypt c := rfl

theorem decChunk_ctValue_encChunk (c : Config) (sm : ShortCtMode) (b : List Byte) :
    decChunk { c with shortCtMode := sm } (ctValue { c with shortCtMode := sm } (encChunk c b)) = strip (pack b) := by
  rw [ctValue_encChunk, decChunk, decrypt_withShortCtMode, decrypt_encrypt]

theorem ecbdOutput_ecbeOutput (c : Config) (sm : ShortCtMode) (m : List Byte) :
    ecbdOutput { c with shortCtMode := sm } (ecbeOutput c m) = (chunksOf m).flatMap fun b => strip (pack b) := by
  rw [ecbdOutput, ecbeOutput, chunksOf_flatMap _ (encChunk_length c), List.flatMap_map]
  simp only [decChunk_ctValue_encChunk]

/-- Shortening the parts of a list loses something of the whole unless no part is shortened. -/
theorem flatMap_eq_flatten_iff {α : Type} {f : List α → List α} {l : List (List α)} (hf : ∀ b ∈ l, (f b).length ≤ b.length) :
    l.flatMap f = l.flatten ↔ ∀ b ∈ l, f b = b := by
  induction l with
  | nil => simp
  | cons b l ih =>
    obtain ⟨hb, hl⟩ := List.forall_mem_cons.mp hf
    rw [List.flatMap_cons, List.flatten_cons, List.forall_mem_cons, ← ih hl]
    refine ⟨fun h => ?_, fun ⟨hhead, htail⟩ => by rw [hhead, htail]⟩
    have hrest : (l.flatMap f).length ≤ l.flatten.length := by
      rw [List.length_flatMap, List.length_flatten]
      exact List.sum_le_sum hl
    have hsum := congrArg List.length h
    rw [List.length_append, List.length_append] at hsum
    exact List.append_inj h (by omega)

/-- Settles O41: each chunk comes back stripped, and strip shortens a chunk exactly if it ends in a zero byte. -/
theorem streamRoundTrip : Obligations.StreamRoundTrip := by
  intro c sm m
  obtain ⟨hflat, hlen⟩ := chunksOf_partition m
  refine ⟨?_, ecbdOutput_ecbeOutput c sm m, ?_⟩
  · simp [ecbeOutput, List.length_flatMap]
  · have hshort (b) (hb : b ∈ chunksOf m) : (strip (pack b)).length ≤ b.length := by
      rw [strip_pack (hlen b hb)]
      exact (List.rdropWhile_prefix _ b).length_le
    rw [ecbdOutput_ecbeOutput]
    nth_rw 2 [← hflat]
    rw [flatMap_eq_flatten_iff hshort]
    exact forall₂_congr fun b hb => strip_pack_eq_self_iff (hlen b hb)

/-! ## The states of a run between its steps (R160 to R170) -/

/-- The bytes `held` of a chunk stand in the chunk buffer (R27). -/
structure Holds (s : State) (held : List Byte) : Prop where
  cnt : s.cnt.val = held.length
  buf : s.buf.toList.take held.length = held.map some

/-- The run reads on, with the bytes `held` of a chunk taken (R158). -/
structure Reading (s : State) (held : List Byte) : Prop extends Holds s held where
  phase : s.phase = .run
  final : s.final = false

/-- The run has ended with the response `OK, 0, 0`. -/
structure Answered (s : State) : Prop where
  phase : s.phase = .resp
  status : s.rspStatus = .ok
  data : s.rspData = 0
  len : s.rspLen = 0

/-- The block offers the bytes `left`, the first of them now (R169). -/
structure Emitting (s : State) (left : List Byte) : Prop where
  phase : s.phase = .emit
  cnt : s.cnt = 0
  left : (s.obuf.toList.take s.olen.val).drop s.oidx.val = left.map some

/-- What a block leads to: if it is final the response, else reading on (R168). -/
def Ended (isFinal : Bool) (s : State) : Prop :=
  match isFinal with
  | true => Answered s
  | false => Reading s []

theorem Reading.withEnv {s : State} {held : List Byte} (h : Reading s held) (e : Env) : Reading { s with env := e } held :=
  { h with }

theorem holds_nil {s : State} (h : s.cnt = 0) : Holds s [] where
  cnt := congrArg Fin.val h
  buf := by simp

theorem endBlock_ended {s : State} (h : s.cnt = 0) : Ended s.final (endBlock s) := by
  obtain ⟨heq, hfinal⟩ | ⟨heq, hfinal⟩ := endBlock_cases s
  · rw [heq, hfinal]; exact { holds_nil h with phase := rfl, final := rfl }
  · rw [heq, hfinal]; exact ⟨rfl, rfl, rfl, rfl⟩

/-! ### Taking a token (R160 to R162) -/

theorem take_succ_set {α : Type} {l : List α} {n : Nat} (h : n < l.length) (x : α) :
    (l.set n x).take (n + 1) = l.take n ++ [x] := by
  rw [List.take_add_one, List.take_set_of_le (Nat.le_refl n), List.getElem?_set_self h]
  rfl

theorem Holds.pushByte {s : State} {held : List Byte} (h : Holds s held) (h8 : held.length < 8) (b : Byte) :
    Holds (pushByte b s) (held ++ [b]) where
  cnt := by rw [pushByte_cnt_val (h.cnt ▸ h8), h.cnt, List.length_append, List.length_singleton]
  buf := by
    rw [pushByte_buf, Vector.toList_setIfInBounds, h.cnt, List.length_append, List.length_singleton,
      take_succ_set (by simpa using h8), h.buf, List.map_append, List.map_singleton]

theorem Reading.pushByte {s : State} {held : List Byte} (h : Reading s held) (h7 : held.length < 7) (b : Byte) :
    Reading (pushByte b s) (held ++ [b]) :=
  { h.toHolds.pushByte (by omega) b with phase := h.phase, final := h.final }

theorem takeByte_of_more {s : State} (h : s.cnt.val < 7) (b : Byte) : takeByte b s = .next (pushByte b s) := by
  have hcnt : (pushByte b s).cnt.val = s.cnt.val + 1 := pushByte_cnt_val (by omega) b
  have hne : (pushByte b s).cnt ≠ 8 := fun h8 => by
    have : (pushByte b s).cnt.val = 8 := congrArg Fin.val h8
    omega
  rw [takeByte, if_pos (by omega)]
  exact if_neg hne

theorem takeByte_of_last {s : State} {held : List Byte} (h : Holds s held) (h7 : held.length = 7) (b : Byte) :
    takeByte b s = .next (afterLoad (loadBlock (blockValue (pushByte b s) (held ++ [b])) (pushByte b s))) := by
  have hlen : (held ++ [b]).length = 8 := by simp [h7]
  have hpush : Holds (Machine.pushByte b s) (held ++ [b]) := h.pushByte (by omega) b
  have hfull : (Machine.pushByte b s).cnt = 8 := Fin.ext (hpush.cnt.trans hlen)
  rw [takeByte, if_pos (by rw [h.cnt]; omega)]
  have hbuf := hpush.buf
  rw [hlen] at hbuf
  exact (if_pos hfull).trans (processBlock_of_values hbuf)

theorem takeEos_of_holds {s : State} {held : List Byte} (h : Holds s held) (h1 : 1 ≤ held.length) (h7 : held.length ≤ 7) :
    takeEos s = .next (afterLoad (loadBlock (blockValue (markFinal s) held) (markFinal s))) := by
  have hcnt := h.cnt
  rw [takeEos_of_chunk (by omega) (by omega), hcnt]
  exact processBlock_of_values h.buf

/-- A token changes neither the mode nor, itself taken, what the ports hold. -/
theorem takeToken_frame {tok : Token} {s t : State} (h : takeToken tok s = .next t) : t.mode = s.mode ∧ t.env = s.env := by
  cases tok with
  | byte b => obtain ⟨-, rfl⟩ | ⟨-, _, -, rfl⟩ := takeByte_next h <;> simp
  | eos => obtain ⟨-, rfl⟩ | ⟨-, -, _, -, rfl⟩ := takeEos_next h <;> simp [respond]
  | err => cases h; exact ⟨rfl, rfl⟩

/-! ### Loading a block and emitting its bytes (R161, R169, R170) -/

theorem toList_loadBlock_obuf (y : Block) (s : State) : (loadBlock y s).obuf.toList = (be8 y).map some := by
  rw [loadBlock_obuf, Vector.toList_ofFn]
  rfl

theorem afterLoad_ended {s : State} (y : Block) (h : emitLen s.mode y = 0) :
    Ended s.final (afterLoad (loadBlock y s)) := by
  have holen : (loadBlock y s).olen = 0 := h
  rw [afterLoad, if_pos holen]
  exact endBlock_ended (loadBlock_cnt y s)

theorem afterLoad_emitting {s : State} (y : Block) (h : emitLen s.mode y ≠ 0) :
    Emitting (afterLoad (loadBlock y s)) ((be8 y).take (emitLen s.mode y).val) := by
  have holen : (loadBlock y s).olen ≠ 0 := h
  rw [afterLoad, if_neg holen]
  exact ⟨rfl, rfl, by rw [List.map_take, ← toList_loadBlock_obuf y s]; rfl⟩

section
variable {s : State} {b : Byte} {left : List Byte}

theorem Emitting.withEnv (h : Emitting s left) (e : Env) : Emitting { s with env := e } left :=
  ⟨h.phase, h.cnt, h.left⟩

theorem Emitting.length_eq (h : Emitting s left) : left.length = s.olen.val - s.oidx.val := by
  have hlen := congrArg List.length h.left
  simp only [List.length_drop, List.length_take, Vector.length_toList, List.length_map] at hlen
  omega

theorem Emitting.emits (h : Emitting s (b :: left)) (hrst : rstAsserted s = false) {a : Answer} {rest : List Answer}
    (ha : s.env.answers = a :: rest) : Emits s b a rest := by
  have hlen := h.length_eq
  rw [List.length_cons] at hlen
  have hlt : s.oidx.val < s.olen.val := by omega
  have hhead := congrArg (fun l : List (Option Byte) => l[0]?) h.left
  rw [List.getElem?_drop, Nat.add_zero, List.getElem?_take_of_lt hlt, Vector.getElem?_toList] at hhead
  exact ⟨h.phase, hrst, hlt, hhead, ha⟩

theorem Emitting.emitOk_last (h : Emitting s [b]) : Ended s.final (emitOk (Fin.ofNat 9 (s.oidx.val + 1)) s) := by
  have hlen := h.length_eq
  rw [List.length_singleton] at hlen
  have hlast : Fin.ofNat 9 (s.oidx.val + 1) = s.olen := Fin.ext (by rw [oidx_succ_val (by omega)]; omega)
  rw [Machine.emitOk_last hlast]
  exact endBlock_ended (s := withOidx (Fin.ofNat 9 (s.oidx.val + 1)) s) h.cnt

theorem Emitting.emitOk_more {b' : Byte} (h : Emitting s (b :: b' :: left)) :
    Emitting (emitOk (Fin.ofNat 9 (s.oidx.val + 1)) s) (b' :: left) := by
  have hlen := h.length_eq
  simp only [List.length_cons] at hlen
  have hval := oidx_succ_val (s := s) (by omega)
  have hmore : Fin.ofNat 9 (s.oidx.val + 1) ≠ s.olen := fun he => by
    have := congrArg Fin.val he
    omega
  rw [Machine.emitOk_more hmore]
  refine ⟨h.phase, h.cnt, ?_⟩
  rw [withOidx_oidx, hval, ← List.tail_drop]
  exact congrArg List.tail h.left

end

@[simp] theorem emitOk_mode (n : Fin 9) (s : State) : (emitOk n s).mode = s.mode := by rw [emitOk_frame]

/-! ## A run, step by step: each lemma about `Ran` takes the state reached further -/

/-- From s, where a run has started, steps lead to u, with the tokens `toks` and the answers `ans` still to come and the bytes `out`
written since. -/
structure Ran (s : State) (toks : List Token) (ans : List Answer) (out : List Byte) (u : State) : Prop where
  steps : ∃ k, core.run k s = .next u
  mode : u.mode = s.mode
  cfg : u.cfg = s.cfg
  env : u.env = { s.env with input := toks, answers := ans, output := s.env.output ++ out, rst := u.env.rst }
  quiet : ∀ l ∈ u.env.rst, l = false

/-- The answers of a sink that takes each of the bytes. -/
def oks (out : List Byte) : List Answer := List.replicate out.length .ok

theorem oks_append (out out' : List Byte) : oks (out ++ out') = oks out ++ oks out' := by
  simp [oks]

theorem rstAsserted_of_quiet {s : State} (h : ∀ l ∈ s.env.rst, l = false) : rstAsserted s = false := by
  unfold rstAsserted
  split
  · rfl
  · next hrst => exact h _ (by simp [hrst])

section
variable {s u : State} {toks : List Token} {ans : List Answer} {out : List Byte}

theorem ran_refl (h : ∀ l ∈ s.env.rst, l = false) : Ran s s.env.input s.env.answers [] s :=
  ⟨⟨0, run_zero s⟩, rfl, rfl, by rw [List.append_nil], h⟩

theorem Ran.next {t : State} {toks' : List Token} {ans' : List Answer} {out' : List Byte} (h : Ran s toks ans out u)
    (hstep : step u = .next t) (hmode : t.mode = u.mode)
    (henv : t.env = { u.env with
      input := toks', answers := ans', output := s.env.output ++ out', rst := u.env.rst.tail }) :
    Ran s toks' ans' out' t := by
  obtain ⟨k, hk⟩ := h.steps
  refine ⟨⟨k + 1, run_add hk ((run_succ_of_next hstep 0).trans (run_zero t))⟩, hmode.trans h.mode,
    (noStepWritesTheConfig u t hstep).trans h.cfg, ?_, ?_⟩
  · rw [henv, h.env]
  · rw [henv]
    exact fun l hl => h.quiet l (List.mem_of_mem_tail hl)

theorem Ran.takes {tok : Token} {t : State} (h : Ran s (tok :: toks) ans out u) (hrun : u.phase = .run)
    (htake : takeToken tok (withInput toks (passRst u)) = .next t) : Ran s toks ans out t := by
  have hfeeds : Feeds u tok toks := ⟨hrun, rstAsserted_of_quiet h.quiet, by rw [h.env]⟩
  obtain ⟨hmode, henv⟩ := takeToken_frame htake
  refine h.next ((step_of_feeds hfeeds).trans htake) hmode ?_
  rw [henv, withInput_env, passRst_env, h.env]

theorem Ran.takesBytes {bs held : List Byte} (h : Ran s (bs.map .byte ++ toks) ans out u) (hu : Reading u held)
    (h7 : held.length + bs.length ≤ 7) : ∃ t, Ran s toks ans out t ∧ Reading t (held ++ bs) := by
  induction bs generalizing u held with
  | nil => exact ⟨u, h, by rwa [List.append_nil]⟩
  | cons b bs ih =>
    rw [List.length_cons] at h7
    have hu' : Reading (withInput (bs.map .byte ++ toks) (passRst u)) held := hu.withEnv _
    have hcnt := hu'.cnt
    have htake := takeByte_of_more (s := withInput (bs.map .byte ++ toks) (passRst u)) (by omega) b
    obtain ⟨t, ht, hread⟩ := ih (h.takes hu.phase htake) (hu'.pushByte (by omega) b) (by simp; omega)
    exact ⟨t, ht, by rwa [List.append_assoc] at hread⟩

theorem Ran.writes {b : Byte} {left : List Byte} (h : Ran s toks (.ok :: ans) out u) (hu : Emitting u (b :: left)) :
    Ran s toks ans (out ++ [b]) (emitOk (Fin.ofNat 9 (u.oidx.val + 1)) (wrote b (withAnswers ans (passRst u)))) := by
  have hemits : Emits u b .ok ans := hu.emits (rstAsserted_of_quiet h.quiet) (by rw [h.env])
  refine h.next (step_of_emits_ok hemits) (emitOk_mode _ _) ?_
  rw [emitOk_env, wrote_env, withAnswers_env, passRst_env, h.env, ← List.append_assoc]

theorem Ran.writesAll {left : List Byte} (h : Ran s toks (oks left ++ ans) out u) (hu : Emitting u left) (hne : left ≠ []) :
    ∃ t, Ran s toks ans (out ++ left) t ∧ Ended u.final t := by
  induction left generalizing u out with
  | nil => exact absurd rfl hne
  | cons b left ih =>
    have hnext := Ran.writes (ans := oks left ++ ans) h hu
    have hu' : Emitting (wrote b (withAnswers (oks left ++ ans) (passRst u))) (b :: left) := hu.withEnv _
    cases left with
    | nil => exact ⟨_, hnext, hu'.emitOk_last⟩
    | cons b' left =>
      obtain ⟨t, ht, hend⟩ := ih hnext hu'.emitOk_more (List.cons_ne_nil _ _)
      rw [emitOk_frame] at hend
      exact ⟨t, by rwa [List.append_assoc] at ht, hend⟩

end

/-! ## The chunks of a run (R171) -/

/-- The output of one chunk of a run in mode m (R171). -/
def chunkOutput (m : Mode) (c : Config) (chunk : List Byte) : List Byte :=
  match m with
  | .E => encChunk c chunk
  | .D => decChunk c (ctValue c chunk)

theorem runOutput_eq_flatMap (m : Mode) (c : Config) (bytes : List Byte) :
    runOutput m c bytes = (chunksOf bytes).flatMap (chunkOutput m c) := by
  cases m <;> rfl

/-- The bytes of a block value that are emitted are the chunk's output. -/
theorem take_emitLen_blockValue (s : State) (chunk : List Byte) :
    (be8 (blockValue s chunk)).take (emitLen s.mode (blockValue s chunk)).val = chunkOutput s.mode s.cfg chunk := by
  unfold blockValue
  cases s.mode with
  | E => exact List.take_of_length_le (be8_length _).le
  | D => rfl

section
variable {s u : State} {toks : List Token} {ans : List Answer} {out : List Byte}

/-- A chunk just processed: its output is written, if there is any, and the block ends. -/
theorem Ran.block {v : State} {chunk : List Byte}
    (h : Ran s toks (oks (chunkOutput s.mode s.cfg chunk) ++ ans) out (afterLoad (loadBlock (blockValue v chunk) v))) :
    ∃ t, Ran s toks ans (out ++ chunkOutput s.mode s.cfg chunk) t ∧ Ended v.final t := by
  have hmode : s.mode = v.mode := by rw [← h.mode, afterLoad_mode, loadBlock_mode]
  have hcfg : s.cfg = v.cfg := by rw [← h.cfg, afterLoad_cfg, loadBlock_cfg]
  have houtput : chunkOutput s.mode s.cfg chunk = (be8 (blockValue v chunk)).take (emitLen v.mode (blockValue v chunk)).val := by
    rw [hmode, hcfg, take_emitLen_blockValue]
  rw [houtput] at h ⊢
  by_cases hlen : emitLen v.mode (blockValue v chunk) = 0
  · have hend := afterLoad_ended (s := v) (blockValue v chunk) hlen
    rw [hlen] at h ⊢
    exact ⟨_, by rwa [Fin.val_zero, List.take_zero, List.append_nil], hend⟩
  · have hemit := afterLoad_emitting (s := v) (blockValue v chunk) hlen
    have hpos : 0 < (emitLen v.mode (blockValue v chunk)).val := Nat.pos_of_ne_zero fun h0 => hlen (Fin.ext h0)
    have hne : (be8 (blockValue v chunk)).take (emitLen v.mode (blockValue v chunk)).val ≠ [] := by
      apply List.ne_nil_of_length_pos
      simp [hpos]
    obtain ⟨t, ht, hend⟩ := h.writesAll hemit hne
    exact ⟨t, ht, by simpa using hend⟩

/-- A full chunk is read, and its output written (R160, R161). -/
theorem Ran.fullChunk {chunk : List Byte}
    (h : Ran s (chunk.map .byte ++ toks) (oks (chunkOutput s.mode s.cfg chunk) ++ ans) out u) (hu : Reading u [])
    (h8 : chunk.length = 8) : ∃ t, Ran s toks ans (out ++ chunkOutput s.mode s.cfg chunk) t ∧ Reading t [] := by
  obtain rfl | ⟨held, b, rfl⟩ := List.eq_nil_or_concat' chunk
  · exact absurd h8 (by simp)
  have h7 : held.length = 7 := by simpa using h8
  rw [List.map_append, List.append_assoc] at h
  obtain ⟨w, hw, hread⟩ := h.takesBytes hu (by simp [h7])
  have hread' : Reading (withInput toks (passRst w)) held := hread.withEnv _
  obtain ⟨t, ht, hend⟩ := (hw.takes hread.phase (takeByte_of_last hread'.toHolds h7 b)).block
  rw [pushByte_final, hread'.final] at hend
  exact ⟨t, ht, hend⟩

/-- A shorter chunk is read up to `Eos`, and its output written (R162). -/
theorem Ran.lastChunk {chunk : List Byte}
    (h : Ran s (chunk.map .byte ++ .eos :: toks) (oks (chunkOutput s.mode s.cfg chunk) ++ ans) out u) (hu : Reading u [])
    (h1 : 1 ≤ chunk.length) (h7 : chunk.length ≤ 7) :
    ∃ t, Ran s toks ans (out ++ chunkOutput s.mode s.cfg chunk) t ∧ Answered t := by
  obtain ⟨w, hw, hread⟩ := h.takesBytes hu (by simpa using h7)
  have hread' : Reading (withInput toks (passRst w)) chunk := hread.withEnv _
  exact (hw.takes hread.phase (takeEos_of_holds hread'.toHolds h1 h7)).block

/-- `Eos` between chunks ends the run (R164). -/
theorem Ran.noChunk (h : Ran s (.eos :: toks) ans out u) (hu : Reading u []) : ∃ t, Ran s toks ans out t ∧ Answered t := by
  have hcnt : (withInput toks (passRst u)).cnt = 0 := Fin.ext hu.cnt
  exact ⟨_, h.takes hu.phase (takeEos_of_no_chunk hcnt), rfl, rfl, rfl, rfl⟩

/-- A run over any bytes writes the output of its chunks and answers (R171). -/
theorem Ran.completes {bytes : List Byte}
    (h : Ran s (bytes.map .byte ++ .eos :: toks) (oks (runOutput s.mode s.cfg bytes) ++ ans) out u) (hu : Reading u []) :
    ∃ t, Ran s toks ans (out ++ runOutput s.mode s.cfg bytes) t ∧ Answered t := by
  rw [runOutput_eq_flatMap] at h ⊢
  induction bytes using chunk_induction generalizing out u with
  | nil =>
    rw [chunksOf_nil] at h ⊢
    rw [List.flatMap_nil, List.append_nil]
    exact h.noChunk hu
  | short chunk h1 h7 =>
    rw [chunksOf_short ⟨h1, h7⟩, List.flatMap_singleton] at h ⊢
    exact h.lastChunk hu h1 h7
  | full chunk bytes h8 ih =>
    rw [chunksOf_full h8, List.flatMap_cons] at h ⊢
    rw [List.map_append, List.append_assoc, oks_append, List.append_assoc] at h
    obtain ⟨w, hw, hread⟩ := h.fullChunk hu h8
    rw [← List.append_assoc]
    exact ih hw hread

end

theorem acceptCommand_runWord {s : State} (h : s.phase = .idle) (m : Mode) (d : Block) :
    acceptCommand ⟨runWord m, d⟩ s = .next (startRun m s) := by
  cases m with
  | E =>
    have hdecode : decode ⟨runWord .E, d⟩ = .ok .ecbe := decode_ecbe d (by decide)
    simp only [acceptCommand, hdecode, exec, execEcbe, onAccept_idle h]
  | D =>
    have hdecode : decode ⟨runWord .D, d⟩ = .ok .ecbd := decode_ecbd d (by decide)
    simp only [acceptCommand, hdecode, exec, execEcbd, onAccept_idle h]

theorem startRun_reading (m : Mode) (s : State) : Reading (startRun m s) [] :=
  { holds_nil (startRun_cnt m s) with phase := rfl, final := rfl }

/-- Settles O40: the first step starts the run, and the rest reads and writes it chunk by chunk. -/
theorem completedRunWritesItsOutput : Obligations.CompletedRunWritesItsOutput := by
  intro m s d cs bytes rest ans hidle hquiet hcmds hinput hanswers
  have hidle' : (withCmds cs (passRst s)).phase = .idle := hidle
  have hstart : step s = .next (startRun m (withCmds cs (passRst s))) :=
    (step_of_offers ⟨hidle, rstAsserted_of_quiet hquiet, hcmds⟩).trans (acceptCommand_runWord hidle' m d)
  have hran := ran_refl (s := startRun m (withCmds cs (passRst s))) fun l hl => hquiet l (List.mem_of_mem_tail hl)
  simp only [startRun_env, withCmds_env, passRst_env, hinput, hanswers] at hran
  obtain ⟨t, ⟨⟨k, hk⟩, -, hcfg, henv, -⟩, hphase, hstatus, hdata, hlen⟩ := hran.completes (startRun_reading m _)
  refine ⟨k + 1, t, (run_succ_of_next hstart k).trans hk, hphase, hstatus, hdata, hlen, ?_⟩
  rw [henv]
  exact ⟨rfl, rfl, rfl, rfl, rfl, rfl, hcfg⟩

end Sys2Proof.Machine

/-! Proofs for the exceptions family (60_exceptions.md): block commands always answer OK (R201), and an input error ends the run
(R204). -/

namespace Sys2Proof.Machine

/-! ## Block commands (R61, R201) -/

section
variable {c c' : Config} (hP : c.P = c'.P) (hS : c.S = c'.S)
include hS

theorem roundF_congr : roundF c = roundF c' := by
  funext w; simp only [roundF, sEntry, hS]

include hP

theorem feistelRound_congr : feistelRound c = feistelRound c' := by
  funext h i; simp only [feistelRound, pEntry, hP, roundF_congr hS]

theorem transform_congr : transform c = transform c' := by
  funext rounds wl wr x; simp only [transform, pEntry, hP, feistelRound_congr hP hS]

theorem encrypt_congr : encrypt c = encrypt c' := by
  funext x; simp only [encrypt, transform_congr hP hS]

theorem decrypt_congr : decrypt c = decrypt c' := by
  funext x; simp only [decrypt, transform_congr hP hS]

end

/-- Settles O21: each command's arm answers OK with what F, Encrypt, Decrypt or the codec gives, and these read no parameter but P
and S. -/
theorem blockCommandsAnswerOnlyFromOperandAndConfig : Obligations.BlockCommandsAnswerOnlyFromOperandAndConfig := by
  intro i hblock s s' hidle hidle' hP hS
  have hF := roundF_congr hS
  have hE := encrypt_congr hP hS
  have hD := decrypt_congr hP hS
  have hfull : (8 : BitVec 4).toNat ≤ 8 := by decide
  cases i with
  | enc x => exact ⟨_, 8, hfull, exec_enc_of_idle hidle x, by rw [hE]; exact exec_enc_of_idle hidle' x⟩
  | dec x => exact ⟨_, 8, hfull, exec_dec_of_idle hidle x, by rw [hD]; exact exec_dec_of_idle hidle' x⟩
  | frnd w => exact ⟨_, 8, hfull, exec_frnd_of_idle hidle w, by rw [hF]; exact exec_frnd_of_idle hidle' w⟩
  | pack b => exact ⟨_, 8, hfull, exec_pack_of_idle hidle b, exec_pack_of_idle hidle' b⟩
  | unpack x => exact ⟨_, 8, hfull, exec_unpack_of_idle hidle x, exec_unpack_of_idle hidle' x⟩
  | ustrip x => exact ⟨_, _, keptLen_code_le x, exec_ustrip_of_idle hidle x, exec_ustrip_of_idle hidle' x⟩
  | echunk b => exact ⟨_, 8, hfull, exec_echunk_of_idle hidle b, by rw [hE]; exact exec_echunk_of_idle hidle' b⟩
  | dchunk v => exact ⟨_, _, keptLen_code_le _, exec_dchunk_of_idle hidle v, by rw [hD]; exact exec_dchunk_of_idle hidle' v⟩
  | ecbe | ecbd => cases hblock

/-! ## An input error (R204) -/

theorem takeToken_err (s : State) : takeToken .err s = .next (raiseIoError .inp s) := rfl

/-- Settles O36: the step takes the Err, and that raises the input error, which keeps the environment's side of the ports. -/
theorem inputErrorAbortsTheRun : Obligations.InputErrorAbortsTheRun := by
  intro s rest hfeeds
  rw [step_of_feeds hfeeds, takeToken_err]
  rfl

end Sys2Proof.Machine

/-! Proofs for the reset family (70_reset_and_hazards.md): what a step with `rst` asserted does (R230, R233). -/

namespace Sys2Proof.Machine

/-- With `rst` asserted the step is the reset, whatever the phase and whatever is offered (R208, R230). -/
theorem step_of_rstAsserted {s : State} (h : rstAsserted s = true) : step s = .next (resetBlock (passRst s)) :=
  if_pos h

theorem resetBlock_resetValues (s : State) : (resetBlock s).ResetValues := by
  obtain ⟨hcmd, hrsp, hin, hout⟩ := handshake_of_idle (resetBlock_phase s)
  exact ⟨rfl, rfl, rfl, rfl, rfl, rfl, rfl, hcmd, hrsp, hin, hout⟩

/-- Settles O44: the step is the reset; `resetBlock` names each item's value, draws a code of a length 0..8, and keeps the parameters
and the environment's side of the ports. -/
theorem resetStepGivesTheResetValues : Obligations.ResetStepGivesTheResetValues := by
  intro s hrst
  exact ⟨_, step_of_rstAsserted hrst, resetBlock_resetValues _, (resetBlock_inv _).rspLen_le,
    resetBlock_cfg _, resetBlock_env _⟩

end Sys2Proof.Machine

/-! Proofs for the statements that cut across the families. First the encoding (30_encoding.md): decoding and encoding are inverse up to
the ignored bits (R72 to R74), and which words decode at all. -/

namespace Sys2Proof
open Machine Claim

/-! ## What a decoded command tells of its transaction (R72 to R74) -/

theorem lenZero_eq_ok {len : BitVec 4} {i j : Instr} (h : lenZero len i = .ok j) : len = 0 ∧ i = j := by
  unfold lenZero at h
  split at h
  · next hlen => cases h; exact ⟨BitVec.eq_of_toNat_eq hlen, rfl⟩
  · cases h

theorem lenUpTo8_eq_ok {len : BitVec 4} {i j : Instr} (h : lenUpTo8 len i = .ok j) : len.toNat ≤ 8 ∧ i = j := by
  unfold lenUpTo8 at h
  split at h
  · next hlen => cases h; exact ⟨hlen, rfl⟩
  · cases h

/-- The rows of the opcode map (R73): the fields of the word and the operand cut out of DATA for each command. -/
inductive Decoded (w : BitVec 8) (d : Block) : Instr → Prop where
  | enc (hop : opField w = 0x1) (hlen : lenField w = 0) : Decoded w d (.enc d)
  | dec (hop : opField w = 0x2) (hlen : lenField w = 0) : Decoded w d (.dec d)
  | frnd (hop : opField w = 0x3) (hlen : lenField w = 0) : Decoded w d (.frnd (wordOperand d))
  | pack (hop : opField w = 0x4) (hlen : (lenField w).toNat ≤ 8) : Decoded w d (.pack (bytesOperand (lenField w).toNat d))
  | unpack (hop : opField w = 0x5) (hlen : lenField w = 0) : Decoded w d (.unpack d)
  | ustrip (hop : opField w = 0x6) (hlen : lenField w = 0) : Decoded w d (.ustrip d)
  | echunk (hop : opField w = 0x7) (hlen : (lenField w).toNat ≤ 8) :
      Decoded w d (.echunk (bytesOperand (lenField w).toNat d))
  | dchunk (hop : opField w = 0x8) (hlen : lenField w = 0) : Decoded w d (.dchunk d)
  | ecbe (hop : opField w = 0x9) (hlen : lenField w = 0) : Decoded w d .ecbe
  | ecbd (hop : opField w = 0xA) (hlen : lenField w = 0) : Decoded w d .ecbd

section
variable {w : BitVec 8} {d : Block} {i : Instr}

/-- Whatever decodes is a row of the opcode map. -/
theorem decoded_of_decode (h : decode ⟨w, d⟩ = .ok i) : Decoded w d i := by
  unfold decode at h
  dsimp only at h
  split at h -- the arms of the decoder in the order of R73, the reserved opcodes last
  case h_11 => cases h
  case h_4 hop => obtain ⟨hlen, rfl⟩ := lenUpTo8_eq_ok h; exact .pack (BitVec.eq_of_toNat_eq hop) hlen
  case h_7 hop => obtain ⟨hlen, rfl⟩ := lenUpTo8_eq_ok h; exact .echunk (BitVec.eq_of_toNat_eq hop) hlen
  all_goals
    next hop =>
      obtain ⟨hlen, rfl⟩ := lenZero_eq_ok h
      constructor
      · exact BitVec.eq_of_toNat_eq hop
      · exact hlen

theorem Decoded.wellFormed (h : Decoded w d i) : i.wellFormed = true := by
  cases h with
  | pack _ hlen | echunk _ hlen => simp [Instr.wellFormed, bytesOperand_length hlen, hlen]
  | _ => rfl

theorem Decoded.opField_eq (h : Decoded w d i) : opField w = Laws.OpField.opcode i := by
  cases h <;> assumption

theorem Decoded.lenField_eq (h : Decoded w d i) : (lenField w).toNat = Laws.OpField.len i := by
  cases h with
  | pack _ hlen | echunk _ hlen => exact (bytesOperand_length hlen d).symm
  | _ _ hlen => rw [hlen]; rfl

/-! ## The word of a decoded command -/

/-- A command word is its two fields (R71). -/
theorem word_eq_of_fields {w w' : BitVec 8} (hop : opField w = opField w')
    (hlen : (lenField w).toNat = (lenField w').toNat) : w = w' := by
  have hlt := w.isLt
  have hlt' := w'.isLt
  replace hop := congrArg BitVec.toNat hop
  simp only [opField, lenField, BitVec.extractLsb'_toNat, Nat.shiftRight_eq_div_pow] at hop hlen
  apply BitVec.eq_of_toNat_eq
  omega

theorem encode_fields (i : Instr) : Laws.OpField.Statement i := by
  cases i with
  | enc x => exact Laws.OpField.enc x
  | dec x => exact Laws.OpField.dec x
  | frnd w => exact Laws.OpField.frnd w
  | pack b => exact Laws.OpField.pack b
  | unpack x => exact Laws.OpField.unpack x
  | ustrip x => exact Laws.OpField.ustrip x
  | echunk b => exact Laws.OpField.echunk b
  | dchunk v => exact Laws.OpField.dchunk v
  | ecbe => exact Laws.OpField.ecbe
  | ecbd => exact Laws.OpField.ecbd

theorem Decoded.encode_cmd (h : Decoded w d i) : (encode i).cmd = w := by
  obtain ⟨hop, hlen⟩ := encode_fields i h.wellFormed
  exact word_eq_of_fields (hop.trans h.opField_eq.symm) (hlen.trans h.lenField_eq.symm)

/-! ## DATA of a decoded command: its ignored bits cleared (R72; log 13) -/

theorem zext64_wordOperand (d : Block) : zext64 (wordOperand d) = d &&& 0xFFFFFFFF := by
  apply BitVec.eq_of_toNat_eq
  have hmask : d.toNat &&& 0xFFFFFFFF = d.toNat % 2 ^ 32 := Nat.and_two_pow_sub_one_eq_mod d.toNat 32
  simp [zext64, wordOperand, lo32_toNat, hmask]
  omega

theorem dataOfBytes_eq_pack (b : List Byte) : dataOfBytes b = pack b := rfl

theorem Decoded.encode_data (h : Decoded w d i) : (encode i).data = keptBits w d := by
  cases h with
  | frnd hop => simp [encode, keptBits, hop, zext64_wordOperand]
  | pack hop hlen | echunk hop hlen => simp [encode, keptBits, hop, dataOfBytes_eq_pack, pack_bytesOperand hlen]
  | _ hop => simp [encode, keptBits, hop]

end

/-- Settles O3: the word is its opcode and its LEN, both of which the encoding holds, and the operand is the bits of DATA kept. -/
theorem encodeOfDecodeKeepsUsedBits : Obligations.EncodeOfDecodeKeepsUsedBits := by
  intro c i hdecode
  have h : Decoded c.cmd c.data i := decoded_of_decode hdecode
  exact ⟨h.wellFormed, congrArg₂ Command.mk h.encode_cmd h.encode_data⟩

/-- Settles O2, command by command: the encoded word holds the opcode and the LEN, and DATA the operand. -/
theorem decodeOfEncodeIsIdentity : Obligations.DecodeOfEncodeIsIdentity := by
  intro i hwf
  cases i with
  | enc x => exact decode_enc (by decide) x (by decide)
  | dec x => exact decode_dec (by decide) x (by decide)
  | frnd w =>
    have hdecode : decode (encode (.frnd w)) = .ok (.frnd (lo32 (zext64 w))) :=
      decode_frnd_of_len (by decide) (zext64 w) (by decide)
    rw [hdecode, lo32_zext64]
  | pack b => exact decode_encode_pack (of_decide_eq_true hwf)
  | unpack x => exact decode_unpack (by decide) x (by decide)
  | ustrip x => exact decode_ustrip (by decide) x (by decide)
  | echunk b => exact decode_encode_echunk (of_decide_eq_true hwf)
  | dchunk v => exact decode_dchunk (by decide) (by decide) v
  | ecbe => exact decode_ecbe 0 (by decide)
  | ecbd => exact decode_ecbd 0 (by decide)

/-! ## The words that decode (R73, R74) -/

section
variable {w : BitVec 8}

theorem mem_matchedWords :
    w ∈ matchedWords ↔ w ∈ [0x10#8, 0x20#8, 0x30#8, 0x50#8, 0x60#8, 0x80#8, 0x90#8, 0xA0#8] ∨
      (∃ n ≤ 8, w = 0x40 + BitVec.ofNat 8 n) ∨ ∃ n ≤ 8, w = 0x70 + BitVec.ofNat 8 n := by
  simp only [matchedWords, List.mem_append, List.mem_map, List.mem_range, Nat.lt_succ_iff, eq_comm, or_assoc]
  rfl

theorem encode_cmd_mem_matchedWords {i : Instr} (hwf : i.wellFormed = true) : (encode i).cmd ∈ matchedWords := by
  rw [mem_matchedWords]
  cases i with
  | pack b => exact .inr (.inl ⟨b.length, of_decide_eq_true hwf, rfl⟩)
  | echunk b => exact .inr (.inr ⟨b.length, of_decide_eq_true hwf, rfl⟩)
  | _ => simp [encode]

theorem exists_decode_of_mem_matchedWords {d : Block} (hw : w ∈ matchedWords) : ∃ i, decode ⟨w, d⟩ = .ok i := by
  obtain hw | ⟨n, hn, rfl⟩ | ⟨n, hn, rfl⟩ := mem_matchedWords.mp hw
  · simp only [List.mem_cons, List.not_mem_nil, or_false] at hw
    obtain rfl | rfl | rfl | rfl | rfl | rfl | rfl | rfl := hw
    · exact ⟨_, decode_enc (by decide) d (by decide)⟩
    · exact ⟨_, decode_dec (by decide) d (by decide)⟩
    · exact ⟨_, decode_frnd_of_len (by decide) d (by decide)⟩
    · exact ⟨_, decode_unpack (by decide) d (by decide)⟩
    · exact ⟨_, decode_ustrip (by decide) d (by decide)⟩
    · exact ⟨_, decode_dchunk (by decide) (by decide) d⟩
    · exact ⟨_, decode_ecbe d (by decide)⟩
    · exact ⟨_, decode_ecbd d (by decide)⟩
  · exact ⟨_, decode_pack_add_len (by decide) d (by decide) hn⟩
  · exact ⟨_, decode_echunk_add_len (by decide) (by decide) d hn⟩

end

/-- Settles O4: a decoded word is the encoding's, which is a word of the list, and each word of the list decodes. -/
theorem exactlyTheTabledWordsDecode : Obligations.ExactlyTheTabledWordsDecode := by
  refine ⟨fun w d => ⟨fun ⟨i, hdecode⟩ => ?_, exists_decode_of_mem_matchedWords⟩, by decide, by decide⟩
  have h : Decoded w d i := decoded_of_decode hdecode
  exact h.encode_cmd ▸ encode_cmd_mem_matchedWords h.wellFormed

/-- Settles O1: five evaluations of the decoder. -/
theorem sampleWordsDecodeAsTabled : Obligations.SampleWordsDecodeAsTabled :=
  ⟨by decide, by decide, by decide, by decide, by decide⟩

end Sys2Proof

/-! The invariants (R42): they hold at reset, every step keeps them, and from a state that meets them every step answers. -/

namespace Sys2Proof.Machine

/-- Settles O46: the invariants hold after reset and say nothing about the environment. -/
theorem invariantHoldsAfterReset : Obligations.InvariantHoldsAfterReset :=
  fun c e => (resetWith_inv c).withEnv e

/-- Settles O47: every move of a step keeps the invariants. -/
theorem everyStepKeepsTheInvariant : Obligations.EveryStepKeepsTheInvariant :=
  fun _ _ => step_inv

/-! ## No step stops (I7, R203) -/

/-- The state with its environment's side of the ports changed by f. -/
def State.mapEnv (f : Env → Env) (s : State) : State := { s with env := f s.env }

/-- A command's own step applies an effect, which leaves the environment's side of the ports alone. -/
theorem exec_eq_onAccept (i : Instr) :
    ∃ g : State → State, exec i = onAccept g ∧ ∀ (f : Env → Env) (s : State), g (s.mapEnv f) = (g s).mapEnv f := by
  cases i <;> exact ⟨_, rfl, fun _ _ => rfl⟩

theorem exec_next (i : Instr) (s : State) : ∃ t, exec i s = .next t := by
  obtain ⟨g, hexec, -⟩ := exec_eq_onAccept i
  exact ⟨_, congrFun hexec s⟩

theorem stepIdle_next (s : State) : ∃ t, stepIdle s = .next t := by
  unfold stepIdle
  split
  · exact ⟨_, rfl⟩
  · unfold acceptCommand
    split
    · exact exec_next _ _
    · exact ⟨_, rfl⟩

theorem stepResp_next (s : State) : ∃ t, stepResp s = .next t := by
  unfold stepResp
  split <;> exact ⟨_, rfl⟩

/-- The entries of `buf` below `cnt` hold the bytes of a chunk (R27). -/
theorem State.Inv.holds {s : State} (h : s.Inv) : ∃ held, Holds s held := by
  have hcnt := s.cnt.is_le
  have hsome : ∀ o ∈ s.buf.toList.take s.cnt.val, o.isSome = true := by
    intro o ho
    obtain ⟨j, hj, rfl⟩ := List.mem_iff_getElem.mp ho
    rw [List.length_take] at hj
    have hlt : j < s.cnt.val := by omega
    simpa using (h.buf_cnt ⟨j, by omega⟩).mpr hlt
  obtain ⟨held, hheld⟩ := valuesOf_isSome hsome
  have hmap := valuesOf_eq_some.mp hheld
  have hlen : s.cnt.val = held.length := by simpa [hcnt] using congrArg List.length hmap
  exact ⟨held, hlen, hlen ▸ hmap⟩

theorem takeToken_next {s : State} (h : s.Inv) (hrun : s.phase = .run) (tok : Token) : ∃ t, takeToken tok s = .next t := by
  have h7 := h.cnt_run hrun
  obtain ⟨held, hheld⟩ := h.holds
  have hcnt := hheld.cnt
  cases tok with
  | byte b =>
    by_cases hlast : s.cnt.val = 7
    · exact ⟨_, takeByte_of_last hheld (by omega) b⟩
    · exact ⟨_, takeByte_of_more (by omega) b⟩
  | eos =>
    by_cases h0 : s.cnt = 0
    · exact ⟨_, takeEos_of_no_chunk h0⟩
    · have : s.cnt.val ≠ 0 := fun he => h0 (Fin.ext he)
      exact ⟨_, takeEos_of_holds hheld (by omega) (by omega)⟩
  | err => exact ⟨_, takeToken_err s⟩

theorem stepRun_next {s : State} (h : s.Inv) (hrun : s.phase = .run) : ∃ t, stepRun s = .next t := by
  unfold stepRun
  split
  · exact ⟨_, rfl⟩
  · next hread =>
    obtain ⟨rest, -, rfl⟩ := inRead_eq_some hread
    exact takeToken_next (s := withInput rest s) (h.withEnv _) hrun _

/-- In EMIT a byte is on offer (R42, R170). -/
theorem State.Inv.offered {s : State} (h : s.Inv) (hemit : s.phase = .emit) :
    ∃ b, s.oidx.val < s.olen.val ∧ s.obuf[s.oidx.val]? = some (some b) := by
  have hlt := h.oidx_emit hemit
  have hle := s.olen.is_le
  obtain ⟨b, hb⟩ := Option.isSome_iff_exists.mp (h.obuf_emit hemit ⟨s.oidx.val, by omega⟩ hlt)
  exact ⟨b, hlt, Vector.getElem?_eq_some_iff.mpr ⟨by omega, hb⟩⟩

theorem stepEmit_next {s : State} (h : s.Inv) (hemit : s.phase = .emit) : ∃ t, stepEmit s = .next t := by
  obtain ⟨b, hlt, hb⟩ := h.offered hemit
  have hget : s.obuf[s.oidx.val] = some b := (Vector.getElem?_eq_some_iff.mp hb).2
  simp only [stepEmit, hlt, hget, dite_true]
  split <;> exact ⟨_, rfl⟩

/-- Settles O48: no phase's step stops, for the entries it reads hold values and a token finds room. -/
theorem noStepFromTheInvariantStops : Obligations.NoStepFromTheInvariantStops := by
  intro s h
  have h' : (passRst s).Inv := h.withEnv _
  unfold step
  split
  · exact ⟨_, rfl⟩
  · unfold stepPhase
    split
    · exact stepIdle_next _
    · exact stepResp_next _
    · next hrun => exact stepRun_next h' hrun
    · next hemit => exact stepEmit_next h' hemit

/-! ## The handshake signals (R34) -/

section
variable (s : State)

theorem cmdReady_iff : cmdReady s = true ↔ s.phase = .idle := by simp [cmdReady]
theorem rspValid_iff : rspValid s = true ↔ s.phase = .resp := by simp [rspValid]
theorem inReady_iff : inReady s = true ↔ s.phase = .run := by simp [inReady]
theorem outValid_iff : outValid s = true ↔ s.phase = .emit ∧ s.oidx.val < s.olen.val := by simp [outValid]

end

/-- Settles O56: each signal names its phase, and in EMIT the invariants leave a byte to offer. -/
theorem exactlyOneHandshakeSignalIsUp : Obligations.ExactlyOneHandshakeSignalIsUp := by
  refine ⟨fun s => ⟨cmdReady_iff s, rspValid_iff s, inReady_iff s, outValid_iff s⟩, fun s h => ?_⟩
  cases hp : s.phase with
  | emit =>
    have hlt : s.oidx < s.olen := h.oidx_emit hp
    simp [cmdReady, rspValid, inReady, outValid, hp, hlt]
  | _ => simp [cmdReady, rspValid, inReady, outValid, hp]

end Sys2Proof.Machine

/-! Single steps, each as an exact next state: accepting a command and consuming a response (R36, R155 to R157), the tokens of a
run (R160 to R163), an output error (R205), and waiting (R158, R159, R234). Then the chunks of a stream (R58, R163). -/

namespace Sys2Proof.Machine
open Sys2Proof.Claim

/-! ## Commands and responses (R36, R155 to R157) -/

/-- After a run start the block takes tokens and no command (R34). -/
theorem handshake_startRun (m : Mode) (s : State) : cmdReady (startRun m s) = false ∧ inReady (startRun m s) = true := by
  simp [cmdReady, inReady]

/-- Settles O14: the command's arm is the run start in mode E. -/
theorem ecbeStartsAnEncryptRun : Obligations.EcbeStartsAnEncryptRun := by
  intro s d hidle
  have hexec : exec .ecbe s = .next (startRun .E s) := onAccept_idle hidle _
  refine ⟨decode_ecbe d (by decide), hexec, fun t ht => ?_⟩
  cases hexec.symm.trans ht
  exact handshake_startRun .E s

/-- Settles O15: the command's arm is the run start in mode D. -/
theorem ecbdStartsADecryptRun : Obligations.EcbdStartsADecryptRun := by
  intro s d hidle
  have hexec : exec .ecbd s = .next (startRun .D s) := onAccept_idle hidle _
  refine ⟨decode_ecbd d (by decide), hexec, fun t ht => ?_⟩
  cases hexec.symm.trans ht
  exact handshake_startRun .D s

theorem acceptCommand_decoded {c : Command} {i : Instr} (h : decode c = .ok i) (s : State) :
    acceptCommand c s = exec i s := by
  simp only [acceptCommand, h]

/-- Settles O17: the step accepts the command on offer. -/
theorem stepRunsTheDecodedCommand : Obligations.StepRunsTheDecodedCommand := by
  intro s c rest i hoffers hdecode
  rw [step_of_offers hoffers, acceptCommand_decoded hdecode]
  rfl

theorem hostRead_of_resp {s : State} (h : s.phase = .resp) : hostRead s = .ok ⟨s.rspStatus, s.rspData, s.rspLen⟩ :=
  if_pos ((rspValid_iff s).mpr h)

theorem hostRead_refused {s : State} (h : s.phase ≠ .resp) : hostRead s = .error .responseNotValid :=
  if_neg (mt (rspValid_iff s).mp h)

/-- A step with the host ready to consume in RESP delivers the response. -/
theorem step_of_takes {s : State} {n : Nat} (hresp : s.phase = .resp) (hrst : rstAsserted s = false)
    (htakes : s.env.takes = n + 1) : step s = .next (consumeResponse (withTakes n (passRst s))) := by
  simp [step, stepPhase, stepResp, hresp, hrst, htakes]

/-- Settles O19: the step records the response register as it stands, which is what the host reads. -/
theorem consumingTheResponseReturnsToIdle : Obligations.ConsumingTheResponseReturnsToIdle :=
  ⟨fun _ _ hresp hrst htakes => ⟨hostRead_of_resp hresp, step_of_takes hresp hrst htakes⟩, fun _ => hostRead_refused⟩

/-! ## Tokens of a run (R160 to R163) -/

/-- Settles O32: the step takes the byte, and with room left in the chunk that stores and counts it. -/
theorem byteIsAppendedToTheChunk : Obligations.ByteIsAppendedToTheChunk := by
  intro s b rest hfeeds h7
  have hlt : (withInput rest (passRst s)).cnt.val < 7 := h7
  refine ⟨pushByte b (withInput rest (passRst s)), ?_, rfl, pushByte_cnt_val (by omega) b, fun j => ?_⟩
  · rw [step_of_feeds hfeeds]
    exact takeByte_of_more hlt b
  · exact pushByte_buf_get b (withInput rest (passRst s)) j

/-- What follows the loading of a block, EndBlock written out (R161, R168). -/
theorem afterLoad_eq_followed (t : State) : afterLoad t = followed t := by
  have hzero : t.olen.val ≠ 0 ↔ ¬ t.olen = 0 := not_congr Fin.val_eq_zero_iff
  simp only [afterLoad, endBlock, followed, hzero, ite_not, respond]

section
variable {s : State} {rest : List Token} {held : List Byte}

/-- The byte that completes a chunk has it processed. -/
theorem step_of_eighth_byte {b : Byte} (hfeeds : Feeds s (.byte b) rest) (h7 : s.cnt.val = 7)
    (hbuf : s.buf.toList.take 7 = held.map some) :
    step s = .next (followed (loaded s (blockValue s (held ++ [b])) (emitLen s.mode (blockValue s (held ++ [b])))
      s.final rest)) := by
  have hlen : held.length = 7 := by simpa using (congrArg List.length hbuf).symm
  have hholds : Holds (withInput rest (passRst s)) held := ⟨h7.trans hlen.symm, hlen.symm ▸ hbuf⟩
  rw [step_of_feeds hfeeds, takeToken, takeByte_of_last hholds hlen, afterLoad_eq_followed]
  rfl

/-- End of stream inside a chunk has it processed as the final one. -/
theorem step_of_eos_in_chunk (hfeeds : Feeds s .eos rest) (h1 : 1 ≤ s.cnt.val) (h7 : s.cnt.val ≤ 7)
    (hbuf : s.buf.toList.take s.cnt.val = held.map some) :
    step s = .next (followed (loaded s (blockValue s held) (emitLen s.mode (blockValue s held)) true rest)) := by
  have hlen : held.length = s.cnt.val := by
    have hlength := congrArg List.length hbuf
    rw [List.length_take, Vector.length_toList, List.length_map] at hlength
    omega
  have hholds : Holds (withInput rest (passRst s)) held := ⟨hlen.symm, hlen.symm ▸ hbuf⟩
  rw [step_of_feeds hfeeds, takeToken, takeEos_of_holds hholds (by omega) (by omega), afterLoad_eq_followed]
  rfl

end

theorem blockValue_encrypt {s : State} (h : s.mode = .E) (chunk : List Byte) :
    blockValue s chunk = encrypt s.cfg (pack chunk) := by simp [blockValue, h]

theorem blockValue_decrypt {s : State} (h : s.mode = .D) (chunk : List Byte) :
    blockValue s chunk = decrypt s.cfg (ctValue s.cfg chunk) := by simp [blockValue, h]

/-- Settles O33: the chunk is complete, so its ciphertext value is the value of its bytes whatever SHORT_CT_MODE is. -/
theorem eighthByteProcessesTheChunk : Obligations.EighthByteProcessesTheChunk := by
  intro s b rest held hfeeds h7 hbuf
  have hstep := step_of_eighth_byte hfeeds h7 hbuf
  have hlen : (held ++ [b]).length = 8 := by simpa using (congrArg List.length hbuf).symm
  refine ⟨fun hmode => ?_, fun hmode => ?_⟩
  · rw [hstep, blockValue_encrypt hmode, hmode, emitLen]
  · rw [hstep, blockValue_decrypt hmode, ctValue_of_full hlen, hmode, emitLen]

/-- Settles O34: the bytes held are the final chunk, processed in the run's mode. -/
theorem eosProcessesThePartialChunk : Obligations.EosProcessesThePartialChunk := by
  intro s rest held hfeeds h1 h7 hbuf
  have hstep := step_of_eos_in_chunk hfeeds h1 h7 hbuf
  refine ⟨fun hmode => ?_, fun hmode => ?_⟩
  · rw [hstep, blockValue_encrypt hmode, hmode, emitLen]
  · rw [hstep, blockValue_decrypt hmode, hmode, emitLen]

/-! ## An output error (R205) -/

/-- A step with a byte on offer in EMIT that the sink refuses raises the output error. -/
theorem step_of_emits_err {s : State} {b : Byte} {rest : List Answer} (h : Emits s b .err rest) :
    step s = .next (raiseIoError .out (withAnswers rest (passRst s))) := by
  obtain ⟨hemit, hrst, hlt, hbyte, hanswers⟩ := h
  have hget : s.obuf[s.oidx.val] = some b := (Vector.getElem?_eq_some_iff.mp hbyte).2
  simp [step, stepPhase, stepEmit, outWrite, hemit, hrst, hlt, hget, hanswers]

/-- Settles O38: the error leaves two free counts within R42's bound. -/
theorem outputErrorAbortsTheRun : Obligations.OutputErrorAbortsTheRun := by
  intro s b rest hemits
  exact ⟨_, _, oidxAfterError_le (withAnswers rest (passRst s)), step_of_emits_err hemits⟩

/-! ## Waiting (R158, R159, R234; log 2) -/

/-- With `rst` not asserted the step is that of the phase (R32). -/
theorem step_of_not_rstAsserted {s : State} (h : rstAsserted s = false) : step s = stepPhase (passRst s) := by
  simp [step, h]

theorem stepIdle_wait {s : State} (h : s.env.cmds = []) : stepIdle s = .next s := by simp [stepIdle, h]

theorem stepResp_wait {s : State} (h : s.env.takes = 0) : stepResp s = .next s := by simp [stepResp, h]

theorem stepRun_wait {s : State} (h : s.env.input = []) : stepRun s = .next s := by simp [stepRun, inRead, h]

theorem stepEmit_wait {s : State} (h : s.env.answers = [])
    (hobuf : ∀ j : Fin 8, j.val < s.olen.val → (s.obuf[j]).isSome = true) : stepEmit s = .next s := by
  by_cases hlt : s.oidx.val < s.olen.val
  · have hle := s.olen.is_le
    obtain ⟨b, hb⟩ := Option.isSome_iff_exists.mp (hobuf ⟨s.oidx.val, by omega⟩ hlt)
    have hget : s.obuf[s.oidx.val] = some b := hb
    simp [stepEmit, outWrite, hlt, hget, h]
  · simp [stepEmit, hlt]

/-- Settles O39: phase by phase. -/
theorem blockWaitsForItsPort : Obligations.BlockWaitsForItsPort := by
  intro s hrst hidle hresp hrun hemit
  rw [step_of_not_rstAsserted hrst, stepPhase]
  split
  · next hp => exact stepIdle_wait (hidle hp)
  · next hp => exact stepResp_wait (hresp hp)
  · next hp => exact stepRun_wait (hrun hp)
  · next hp =>
    obtain ⟨hanswers, hobuf⟩ := hemit hp
    exact stepEmit_wait hanswers hobuf

/-! ## The output of a block and of a run (R58, R64, R163) -/

/-- The entries of the chunk buffer after its last byte. -/
theorem pushByte_buf_full {s : State} (h : s.cnt.val = 7) (b : Byte) :
    (pushByte b s).buf.toList.take 8 = s.buf.toList.take 7 ++ [some b] := by
  rw [pushByte_buf, Vector.toList_setIfInBounds, h]
  exact take_succ_set (by simp) (some b)

theorem followed_block (t : State) :
    (followed t).obuf = t.obuf ∧ (followed t).olen = t.olen ∧ (followed t).oidx = t.oidx := by
  rw [← afterLoad_eq_followed]
  simp

/-- A full chunk loads the block value of the bytes held and the byte taken. -/
theorem step_last_byte {s t : State} {b : Byte} {rest : List Token} (hfeeds : Feeds s (.byte b) rest) (h7 : s.cnt.val = 7)
    (hs : step s = .next t) :
    ∃ held : List Byte, s.buf.toList.take 7 = held.map some ∧
      t.obuf = Vector.ofFn (fun j : Fin 8 => some (byteOf (blockValue s (held ++ [b])) j.val)) ∧
      t.olen = emitLen s.mode (blockValue s (held ++ [b])) ∧ t.oidx = 0 := by
  have htake := (step_of_feeds hfeeds).symm.trans hs
  obtain ⟨hlt, -⟩ | ⟨-, chunk, hbuf, -⟩ := takeByte_next htake
  · exact absurd h7 (Nat.ne_of_lt hlt)
  · have hfull : (withInput rest (passRst s)).cnt.val = 7 := h7
    rw [pushByte_buf_full hfull] at hbuf
    obtain ⟨held, last, rfl, hheld, -⟩ := List.append_eq_map_iff.mp hbuf
    have ht := Host.Outcome.next.inj (hs.symm.trans (step_of_eighth_byte hfeeds h7 hheld.symm))
    exact ⟨held, hheld.symm, ht ▸ followed_block _⟩

/-- Settles O43: the block loaded is the block value of the chunk, which reads only the mode and the parameters. -/
theorem blockOutputDependsOnlyOnItsChunk : Obligations.BlockOutputDependsOnlyOnItsChunk := by
  intro s s' t t' b rest rest' hfeeds hfeeds' h7 h7' hbuf hmode hcfg hs hs'
  obtain ⟨held, hheld, hobuf, holen, hoidx⟩ := step_last_byte hfeeds h7 hs
  obtain ⟨held', hheld', hobuf', holen', hoidx'⟩ := step_last_byte hfeeds' h7' hs'
  have hsame : held = held' :=
    List.map_injective_iff.mpr (Option.some_injective Byte) (hheld.symm.trans (hbuf.trans hheld'))
  have hvalue (chunk : List Byte) : blockValue s chunk = blockValue s' chunk := by simp only [blockValue, hmode, hcfg]
  rw [hobuf, hobuf', holen, holen', hoidx, hoidx', hsame, hmode, hvalue]
  exact ⟨rfl, rfl, rfl⟩

/-- No chunk is empty, all but the last have 8 bytes, and there are `ceil(n / 8)` of them (R58). -/
theorem chunksOf_lengths (m : List Byte) :
    (∀ b ∈ chunksOf m, 1 ≤ b.length) ∧ (∀ b ∈ (chunksOf m).dropLast, b.length = 8) ∧
      (chunksOf m).length = (m.length + 7) / 8 := by
  induction m using chunk_induction with
  | nil => simp [chunksOf_nil]
  | short s h1 h7 =>
    rw [chunksOf_short ⟨h1, h7⟩]
    refine ⟨by simpa using h1, by simp, ?_⟩
    rw [List.length_singleton]
    omega
  | full b rest hb ih =>
    obtain ⟨hpos, hfull, hcount⟩ := ih
    rw [chunksOf_full hb]
    refine ⟨by simpa [hb] using hpos, ?_, ?_⟩
    · cases hchunks : chunksOf rest with
      | nil => simp
      | cons b' l =>
        rw [hchunks] at hfull
        simpa [hb] using hfull
    · rw [List.length_cons, hcount, List.length_append, hb]
      omega

/-- Settles O42: each chunk writes 8 bytes. -/
theorem encryptRunOutputLength : Obligations.EncryptRunOutputLength := by
  intro c m
  obtain ⟨hflat, hle⟩ := chunksOf_partition m
  obtain ⟨hpos, hfull, hcount⟩ := chunksOf_lengths m
  refine ⟨hflat, fun b hb => ⟨hpos b hb, hle b hb⟩, hfull, ?_⟩
  simp [ecbeOutput, List.length_flatMap, hcount, Nat.mul_comm]

end Sys2Proof.Machine

/-! What every step keeps of the ports, the phase and the response register (R32 to R36, R154, R208), by the case analysis of what one
step can do. -/

namespace Sys2Proof.Machine
open Sys2Proof.Claim

/-! ## The ports (R61, R208, R230) -/

/-- What one step can do at the ports: with rst asserted nothing, and else at most one event of the phase's own port. -/
inductive PortMoved (s : State) : Env → Prop where
  | none : PortMoved s { s.env with rst := s.env.rst.tail }
  | command (h : rstAsserted s = false) (hp : s.phase = .idle) (rest : List Command) :
      PortMoved s { s.env with rst := s.env.rst.tail, cmds := rest }
  | response (h : rstAsserted s = false) (hp : s.phase = .resp) (n : Nat) (r : Response) :
      PortMoved s { s.env with rst := s.env.rst.tail, takes := n, responses := s.env.responses ++ [r] }
  | token (h : rstAsserted s = false) (hp : s.phase = .run) (rest : List Token) :
      PortMoved s { s.env with rst := s.env.rst.tail, input := rest }
  | answer (h : rstAsserted s = false) (hp : s.phase = .emit) (rest : List Answer) (written : List Byte) :
      PortMoved s { s.env with rst := s.env.rst.tail, answers := rest, output := s.env.output ++ written }

theorem Moved.portMoved {s t : State} (hm : Moved s t) : PortMoved s t.env := by
  cases hm with
  | reset | wait => exact .none
  | answered h hp _ rest | started h hp _ rest => exact .command h hp rest
  | consumed h hp n => exact .response h hp n _
  | gotByte h hp _ rest | gotLastEos h hp rest | gotErr h hp rest => exact .token h hp rest
  | gotEighth h hp _ rest _ _ u hu | gotEosInChunk h hp rest _ _ _ u hu =>
    rw [afterLoad_env, loadBlock_env, hu]
    exact .token h hp rest
  | emitted h hp _ b _ rest =>
    rw [emitOk_env]
    exact .answer h hp rest [b]
  | emitFailed h hp _ _ _ rest =>
    have hanswer := PortMoved.answer h hp rest []
    rwa [List.append_nil] at hanswer

theorem step_portMoved {s t : State} (hs : step s = .next t) : PortMoved s t.env := (step_moved hs).portMoved

/-- Settles O52: an event is one of the phase's own port, and of none with rst asserted. -/
theorem eachPhaseTouchesOnlyItsPort : Obligations.EachPhaseTouchesOnlyItsPort := by
  intro s t hs
  have hport := step_portMoved hs
  generalize t.env = e at hport ⊢
  cases hport with
  | none => simp
  | command h hp | response h hp | token h hp | answer h hp => simp [h, hp]

theorem exec_busy {s : State} (h : s.phase ≠ .idle) (i : Instr) : exec i s = .next s := by
  obtain ⟨g, hexec, -⟩ := exec_eq_onAccept i
  rw [hexec, onAccept_busy h]

/-- Settles O18: only IDLE touches the command port, and acceptance does nothing elsewhere. -/
theorem commandsAreHeldOutsideIdle : Obligations.CommandsAreHeldOutsideIdle :=
  fun s hbusy => ⟨fun t hs => (eachPhaseTouchesOnlyItsPort s t hs).1 (.inl hbusy), exec_busy hbusy⟩

/-- The records only grow (log 14). -/
theorem step_records {s t : State} (hs : step s = .next t) :
    s.env.output <+: t.env.output ∧ s.env.responses <+: t.env.responses := by
  have hport := step_portMoved hs
  generalize t.env = e at hport ⊢
  cases hport <;> simp

/-- Settles O51: what each step keeps a run keeps. -/
theorem writtenBytesAreNeverUndone : Obligations.WrittenBytesAreNeverUndone := by
  intro k s t hr
  refine run_keeps (P := fun u => s.env.output <+: u.env.output ∧ s.env.responses <+: u.env.responses)
    (fun u v ⟨hout, hresp⟩ hs => ?_) ⟨List.prefix_rfl, List.prefix_rfl⟩ hr
  obtain ⟨hout', hresp'⟩ := step_records hs
  exact ⟨hout.trans hout', hresp.trans hresp'⟩

/-! ## The response register (R33) -/

/-- The response register is as in s. -/
def SameResponse (s t : State) : Prop := t.rspStatus = s.rspStatus ∧ t.rspData = s.rspData ∧ t.rspLen = s.rspLen

/-- What follows the loading of a block (R161, R168). -/
theorem afterLoad_cases (s : State) :
    (s.olen ≠ 0 ∧ afterLoad s = { s with phase := .emit }) ∨
      (s.olen = 0 ∧ s.final = false ∧ afterLoad s = { s with phase := .run }) ∨
      (s.olen = 0 ∧ s.final = true ∧ afterLoad s = respond .ok 0 0 s) := by
  by_cases hlen : s.olen = 0
  · obtain ⟨heq, hfinal⟩ | ⟨heq, hfinal⟩ := endBlock_cases s
    · exact .inr (.inl ⟨hlen, hfinal, (if_pos hlen).trans heq⟩)
    · exact .inr (.inr ⟨hlen, hfinal, (if_pos hlen).trans heq⟩)
  · exact .inl ⟨hlen, if_neg hlen⟩

theorem afterLoad_sameResponse {s : State} (h : (afterLoad s).phase ≠ .resp) : SameResponse s (afterLoad s) := by
  obtain ⟨-, heq⟩ | ⟨-, -, heq⟩ | ⟨-, -, heq⟩ := afterLoad_cases s <;> rw [heq] at h ⊢
  · exact ⟨rfl, rfl, rfl⟩
  · exact ⟨rfl, rfl, rfl⟩
  · exact absurd rfl h

/-- Apart from reset and outside RESP only a step that ends in RESP writes the response register. -/
theorem Moved.sameResponse {s t : State} (hm : Moved s t) (hrst : rstAsserted s = false)
    (hp : t.phase ≠ .resp ∨ s.phase = .resp) : SameResponse s t := by
  cases hm with
  | reset h => exact absurd h (by simp [hrst])
  | wait | started | consumed | gotByte => exact ⟨rfl, rfl, rfl⟩
  | answered _ hidle | gotLastEos _ hidle | gotErr _ hidle | emitFailed _ hidle => simp [hidle] at hp
  | gotEighth _ hrun _ _ _ _ u hu | gotEosInChunk _ hrun _ _ _ _ u hu =>
    have hsame := afterLoad_sameResponse (hp.resolve_right (by simp [hrun]))
    rw [hu] at hsame ⊢
    exact hsame
  | emitted _ hemit =>
    obtain ⟨-, -, -, hregister⟩ := emitOk_phase_response (Fin.ofNat 9 (s.oidx.val + 1)) _
    exact hregister (hp.resolve_right (by simp [hemit]))

/-- Settles O55: move by move. -/
theorem responseRegisterIsWrittenOnlyByRespond : Obligations.ResponseRegisterIsWrittenOnlyByRespond :=
  fun _ _ hs hrst hp => (step_moved hs).sameResponse hrst hp

/-! ## The phase table (R32) -/

theorem exec_of_isBlockCommand {i : Instr} (hblock : isBlockCommand i = true) {s t : State} (hidle : s.phase = .idle)
    (hs : exec i s = .next t) : t.phase = .resp := by
  obtain ⟨d, n, -, hexec, -⟩ := blockCommandsAnswerOnlyFromOperandAndConfig i hblock s s hidle hidle rfl rfl
  cases hexec.symm.trans hs
  rfl

/-- Accepting a command in IDLE starts a run if it is one of the two run commands, and answers otherwise. -/
theorem acceptCommand_phase {c : Command} {s t : State} (hidle : s.phase = .idle) (hs : acceptCommand c s = .next t) :
    ((decode c ≠ .ok .ecbe ∧ decode c ≠ .ok .ecbd) ∧ t.phase = .resp) ∨
      ((decode c = .ok .ecbe ∨ decode c = .ok .ecbd) ∧ t.phase = .run) := by
  cases hdecode : decode c with
  | error why =>
    cases (acceptCommand_unmatched hdecode hidle).symm.trans hs
    exact .inl ⟨by simp, rfl⟩
  | ok i =>
    rw [acceptCommand_decoded hdecode] at hs
    have hstart (m : Mode) : onAccept (startRun m) s = .next t → t.phase = .run := by
      rw [onAccept_idle hidle]
      rintro ⟨⟩
      rfl
    cases i with
    | ecbe => exact .inr ⟨.inl rfl, hstart .E hs⟩
    | ecbd => exact .inr ⟨.inr rfl, hstart .D hs⟩
    | _ => exact .inl ⟨by simp, exec_of_isBlockCommand rfl hidle hs⟩

/-- A step on a command on offer is one of the two rows of IDLE. -/
theorem tabled_of_offers {s t : State} {c : Command} {rest : List Command} (hoffers : Offers s c rest)
    (hs : step s = .next t) : Tabled s t := by
  obtain ⟨hidle, -, hcmds⟩ := id hoffers
  have hidle' : (withCmds rest (passRst s)).phase = .idle := hidle
  obtain ⟨hi, ht⟩ | ⟨hi, ht⟩ := acceptCommand_phase hidle' ((step_of_offers hoffers).symm.trans hs)
  · exact .blockCommand hidle c rest hcmds hi ht
  · exact .runCommand hidle c rest hcmds hi ht

/-- A block just loaded has bytes to emit, or it is one of a decrypt run and has ended (R161). -/
theorem afterLoad_loadBlock_cases (y : Block) (s : State) :
    ((afterLoad (loadBlock y s)).olen ≠ 0 ∧ (afterLoad (loadBlock y s)).phase = .emit) ∨
      ((afterLoad (loadBlock y s)).olen = 0 ∧ s.mode = .D ∧ afterLoad (loadBlock y s) = endBlock (loadBlock y s)) := by
  rw [afterLoad_olen]
  by_cases hlen : (loadBlock y s).olen = 0
  · exact .inr ⟨hlen, mode_of_emitLen_eq_zero hlen, if_pos hlen⟩
  · exact .inl ⟨hlen, by rw [afterLoad, if_neg hlen]⟩

/-- Every move is a row of the table, for a run that reads on has not processed its final chunk (R168). -/
theorem Moved.tabled {s t : State} (hm : Moved s t) (hinv : s.Inv) (hs : step s = .next t) : Tabled s t := by
  cases hm with
  | reset h => exact .reset h rfl
  | wait => exact .wait rfl
  | answered h hp c rest hc | started h hp c rest hc => exact tabled_of_offers ⟨hp, h, hc⟩ hs
  | consumed _ hp n hn => exact .consume hp (by omega) rfl
  | gotByte _ hp b rest hi hc => exact .byteOfChunk hp b (by simp [hi]) hc hp
  | gotEighth _ hp b rest hi hc u hu chunk =>
    have hfinal : u.final = false := by rw [hu]; exact hinv.final_run hp
    have hmode : u.mode = s.mode := by rw [hu]; rfl
    refine .lastByteOfChunk hp b (by simp [hi]) hc ?_
    obtain hbytes | ⟨hlen, hdec, heq⟩ := afterLoad_loadBlock_cases (blockValue u chunk) u
    · exact .inl hbytes
    · exact .inr ⟨hlen, hmode ▸ hdec, by rw [heq, endBlock_more (s := loadBlock _ u) hfinal]⟩
  | gotLastEos _ hp rest hi hc => exact .eosAlone hp (by simp [hi]) hc ⟨rfl, rfl⟩
  | gotEosInChunk _ hp rest hi hc0 hc u hu chunk =>
    have hfinal : u.final = true := by rw [hu]; rfl
    have hmode : u.mode = s.mode := by rw [hu]; rfl
    refine .eosInChunk hp (by simp [hi]) ⟨by omega, by omega⟩ ⟨by simp [hfinal], ?_⟩
    obtain hbytes | ⟨hlen, hdec, heq⟩ := afterLoad_loadBlock_cases (blockValue u chunk) u
    · exact .inl hbytes
    · exact .inr ⟨hlen, hmode ▸ hdec, by rw [heq, endBlock_final (s := loadBlock _ u) hfinal]; exact ⟨rfl, rfl⟩⟩
  | gotErr _ hp rest hi => exact .inputError hp (by simp [hi]) ⟨rfl, rfl⟩
  | emitted _ hp ho b _ rest ha =>
    have hval := oidx_succ_val ho
    have hhead : s.env.answers.head? = some .ok := by simp [ha]
    obtain ⟨hne, heq⟩ | ⟨hlast, hfinal, heq⟩ | ⟨hlast, hfinal, heq⟩ :=
      emitOk_cases (Fin.ofNat 9 (s.oidx.val + 1)) (wrote b (withAnswers rest (passRst s)))
    · exact .byteWritten hp hhead (fun he => hne (Fin.ext (hval.trans he))) (by rw [heq]; exact hp)
    · exact .lastByteWritten hp hhead (hval.symm.trans (congrArg Fin.val hlast)) (.inl ⟨hfinal, by rw [heq]⟩)
    · exact .lastByteWritten hp hhead (hval.symm.trans (congrArg Fin.val hlast))
        (.inr ⟨hfinal, by rw [heq]; exact ⟨rfl, rfl⟩⟩)
  | emitFailed _ hp _ _ _ rest ha => exact .outputError hp (by simp [ha]) ⟨rfl, rfl⟩

/-- Settles O53: every move of a step is a row. -/
theorem phasesChangeOnlyAsTabled : Obligations.PhasesChangeOnlyAsTabled :=
  fun _ _ hinv hs => (step_moved hs).tabled hinv hs

/-! ## How a run ends (R154) -/

/-- The run goes on, or it has ended with OK. -/
theorem afterLoad_phase (s : State) :
    ((afterLoad s).phase = .run ∨ (afterLoad s).phase = .emit) ∨ s.final = true ∧ Answered (afterLoad s) := by
  obtain ⟨-, heq⟩ | ⟨-, -, heq⟩ | ⟨-, hfinal, heq⟩ := afterLoad_cases s <;> rw [heq]
  · exact .inl (.inr rfl)
  · exact .inl (.inl rfl)
  · exact .inr ⟨hfinal, rfl, rfl, rfl, rfl⟩

theorem emitOk_phase {s : State} (hemit : s.phase = .emit) (n : Fin 9) :
    ((emitOk n s).phase = .run ∨ (emitOk n s).phase = .emit) ∨ s.final = true ∧ Answered (emitOk n s) := by
  obtain ⟨-, heq⟩ | ⟨-, -, heq⟩ | ⟨-, hfinal, heq⟩ := emitOk_cases n s <;> rw [heq]
  · exact .inl (.inr hemit)
  · exact .inl (.inl rfl)
  · exact .inr ⟨hfinal, rfl, rfl, rfl, rfl⟩

/-- What a step from RUN or EMIT leads to: the reset, the run going on, or one of the three endings, each with its cause. -/
inductive RunMoved (s t : State) : Prop where
  | reset (h : rstAsserted s = true) (ht : t.phase = .idle)
  | goesOn (h : rstAsserted s = false) (ht : t.phase = .run ∨ t.phase = .emit)
  | ended (h : rstAsserted s = false)
      (hcause : s.env.input.head? = some .eos ∧ s.phase = .run ∨ s.final = true ∧ s.phase = .emit) (ht : Answered t)
  | inputError (h : rstAsserted s = false) (hp : s.phase = .run) (hi : s.env.input.head? = some .err) (u : State)
      (ht : t = raiseIoError .inp u)
  | outputError (h : rstAsserted s = false) (hp : s.phase = .emit) (ha : s.env.answers.head? = some .err) (u : State)
      (ht : t = raiseIoError .out u)

theorem Moved.runMoved {s t : State} (hm : Moved s t) (hinv : s.Inv) (hp : s.phase = .run ∨ s.phase = .emit) :
    RunMoved s t := by
  cases hm with
  | reset h => exact .reset h rfl
  | wait h => exact .goesOn h hp
  | answered _ hp' | started _ hp' | consumed _ hp' => simp [hp'] at hp
  | gotByte h hrun => exact .goesOn h (.inl hrun)
  | gotEighth h hrun _ _ _ _ u hu =>
    have hfinal : u.final = false := by rw [hu]; exact hinv.final_run hrun
    obtain hon | ⟨hlast, -⟩ := afterLoad_phase (loadBlock (blockValue u _) u)
    · exact .goesOn h hon
    · exact absurd hlast (by simp [hfinal])
  | gotLastEos h hrun _ hi => exact .ended h (.inl ⟨by simp [hi], hrun⟩) ⟨rfl, rfl, rfl, rfl⟩
  | gotEosInChunk h hrun _ hi _ _ u =>
    obtain hon | ⟨-, hanswered⟩ := afterLoad_phase (loadBlock (blockValue u _) u)
    · exact .goesOn h hon
    · exact .ended h (.inl ⟨by simp [hi], hrun⟩) hanswered
  | gotErr h hrun _ hi => exact .inputError h hrun (by simp [hi]) _ rfl
  | emitted h hemit _ b _ rest =>
    have hemit' : (wrote b (withAnswers rest (passRst s))).phase = .emit := hemit
    obtain hon | ⟨hfinal, hanswered⟩ := emitOk_phase hemit' (Fin.ofNat 9 (s.oidx.val + 1))
    · exact .goesOn h hon
    · exact .ended h (.inr ⟨hfinal, hemit⟩) hanswered
  | emitFailed h hemit _ _ _ _ ha => exact .outputError h hemit (by simp [ha]) _ rfl

/-- Settles O54: a full chunk is not the final one, so only Eos and the end of a final block answer OK. -/
theorem runEndsOnlyByItsThreeResponses : Obligations.RunEndsOnlyByItsThreeResponses := by
  intro s t hinv hp hs
  cases (step_moved hs).runMoved hinv hp with
  | reset h ht => exact .inl ⟨h, ht⟩
  | goesOn h ht => exact .inr (.inl ⟨h, ht⟩)
  | ended h hcause ht => exact .inr (.inr ⟨h, ht.phase, ht.data, ht.len, .inl ⟨ht.status, hcause⟩⟩)
  | inputError h hrun hi u ht => exact .inr (.inr ⟨h, by simp [ht, hrun, hi]⟩)
  | outputError h hemit ha u ht => exact .inr (.inr ⟨h, by simp [ht, hemit, ha]⟩)

end Sys2Proof.Machine

/-! Later offers (R158, R159, R246): a step that does not wait for a party commutes with what the party offers behind. Only the step
of a port's own phase reads the port; the rest of a step commutes with any change of the environment's side. -/

namespace Sys2Proof.Machine
open Sys2Proof.Claim

section
variable (f : Env → Env)

/-! ## What does not read the environment's side of the ports -/

@[simp] theorem mapEnv_buf (s : State) : (s.mapEnv f).buf = s.buf := rfl

theorem endBlock_mapEnv (s : State) : endBlock (s.mapEnv f) = (endBlock s).mapEnv f := by
  cases h : s.final with
  | true => rw [endBlock_final h, endBlock_final (s := s.mapEnv f) h]; rfl
  | false => rw [endBlock_more h, endBlock_more (s := s.mapEnv f) h]; rfl

theorem afterLoad_mapEnv (s : State) : afterLoad (s.mapEnv f) = (afterLoad s).mapEnv f := by
  simp only [afterLoad, endBlock_mapEnv, apply_ite (State.mapEnv f)]
  rfl

theorem emitOk_mapEnv (n : Fin 9) (s : State) : emitOk n (s.mapEnv f) = (emitOk n s).mapEnv f := by
  by_cases hlast : n = s.olen
  · rw [emitOk_last hlast, emitOk_last (s := s.mapEnv f) hlast]
    exact endBlock_mapEnv f (withOidx n s)
  · rw [emitOk_more hlast, emitOk_more (s := s.mapEnv f) hlast]
    rfl

theorem processBlock_mapEnv (n : Nat) (s : State) :
    processBlock n (s.mapEnv f) = onNext (State.mapEnv f) (processBlock n s) := by
  simp only [processBlock, mapEnv_buf]
  cases valuesOf (s.buf.toList.take n) with
  | none => rfl
  | some chunk => exact congrArg Host.Outcome.next (afterLoad_mapEnv f (loadBlock (blockValue s chunk) s))

theorem takeToken_mapEnv (tok : Token) (s : State) :
    takeToken tok (s.mapEnv f) = onNext (State.mapEnv f) (takeToken tok s) := by
  cases tok with
  | byte b =>
    have hblock := processBlock_mapEnv f 8 (pushByte b s)
    simp only [takeToken, takeByte, apply_ite (onNext (State.mapEnv f)), ← hblock]
    rfl
  | eos =>
    have hblock := processBlock_mapEnv f s.cnt.val (markFinal s)
    simp only [takeToken, takeEos, apply_ite (onNext (State.mapEnv f)), ← hblock]
    rfl
  | err => rfl

theorem onAccept_mapEnv {g : State → State} (hg : ∀ s, g (s.mapEnv f) = (g s).mapEnv f) (s : State) :
    onAccept g (s.mapEnv f) = onNext (State.mapEnv f) (onAccept g s) := by
  by_cases hidle : s.phase = .idle
  · rw [onAccept_idle hidle, onAccept_idle (s := s.mapEnv f) hidle, hg]; rfl
  · rw [onAccept_busy hidle, onAccept_busy (s := s.mapEnv f) hidle]; rfl

theorem acceptCommand_mapEnv (c : Command) (s : State) :
    acceptCommand c (s.mapEnv f) = onNext (State.mapEnv f) (acceptCommand c s) := by
  unfold acceptCommand
  cases decode c with
  | error => exact onAccept_mapEnv f (g := respond .advisory 0 0) (fun _ => rfl) s
  | ok i =>
    obtain ⟨g, hexec, hg⟩ := exec_eq_onAccept i
    dsimp only
    rw [hexec]
    exact onAccept_mapEnv f (hg f) s

end

/-! ## Offers behind what the ports hold (R246) -/

/-- More commands, tokens and answers behind those on offer. -/
def Env.offerMore (cs : List Command) (toks : List Token) (ans : List Answer) (e : Env) : Env :=
  { e with cmds := e.cmds ++ cs, input := e.input ++ toks, answers := e.answers ++ ans }

/-- The state with more on offer at its ports. -/
def State.offerMore (cs : List Command) (toks : List Token) (ans : List Answer) : State → State :=
  State.mapEnv (Env.offerMore cs toks ans)

section
variable (cs : List Command) (toks : List Token) (ans : List Answer) (s : State)

@[simp] theorem offerMore_phase : (s.offerMore cs toks ans).phase = s.phase := rfl
@[simp] theorem offerMore_obuf : (s.offerMore cs toks ans).obuf = s.obuf := rfl
@[simp] theorem offerMore_olen : (s.offerMore cs toks ans).olen = s.olen := rfl
@[simp] theorem offerMore_oidx : (s.offerMore cs toks ans).oidx = s.oidx := rfl
@[simp] theorem offerMore_cmds : (s.offerMore cs toks ans).env.cmds = s.env.cmds ++ cs := rfl
@[simp] theorem offerMore_takes : (s.offerMore cs toks ans).env.takes = s.env.takes := rfl
@[simp] theorem offerMore_input : (s.offerMore cs toks ans).env.input = s.env.input ++ toks := rfl
@[simp] theorem offerMore_answers : (s.offerMore cs toks ans).env.answers = s.env.answers ++ ans := rfl
@[simp] theorem rstAsserted_offerMore : rstAsserted (s.offerMore cs toks ans) = rstAsserted s := rfl
@[simp] theorem passRst_offerMore : passRst (s.offerMore cs toks ans) = (passRst s).offerMore cs toks ans := rfl

/-! The three single offers. -/

theorem offerCommand_eq_offerMore (c : Command) : offerCommand c = State.offerMore [c] [] [] := by
  funext s; simp [offerCommand, State.offerMore, State.mapEnv, Env.offerMore]

theorem offerToken_eq_offerMore (tok : Token) : offerToken tok = State.offerMore [] [tok] [] := by
  funext s; simp [offerToken, State.offerMore, State.mapEnv, Env.offerMore]

theorem offerAnswer_eq_offerMore (a : Answer) : offerAnswer a = State.offerMore [] [] [a] := by
  funext s; simp [offerAnswer, State.offerMore, State.mapEnv, Env.offerMore]

end

/-! ## The step of each phase -/

section
variable {cs : List Command} {toks : List Token} {ans : List Answer} {s : State}

theorem stepIdle_offerMore (h : s.env.cmds = [] → cs = []) :
    stepIdle (s.offerMore cs toks ans) = onNext (State.offerMore cs toks ans) (stepIdle s) := by
  cases hcmds : s.env.cmds with
  | nil =>
    rw [stepIdle_wait hcmds, stepIdle_wait (by simp [hcmds, h hcmds])]
    rfl
  | cons c rest =>
    simp only [stepIdle, offerMore_cmds, hcmds, List.cons_append]
    exact acceptCommand_mapEnv (Env.offerMore cs toks ans) c (withCmds rest s)

theorem stepResp_offerMore : stepResp (s.offerMore cs toks ans) = onNext (State.offerMore cs toks ans) (stepResp s) := by
  simp only [stepResp, offerMore_takes]
  cases s.env.takes <;> rfl

theorem stepRun_offerMore (h : s.env.input = [] → toks = []) :
    stepRun (s.offerMore cs toks ans) = onNext (State.offerMore cs toks ans) (stepRun s) := by
  cases hinput : s.env.input with
  | nil =>
    rw [stepRun_wait hinput, stepRun_wait (by simp [hinput, h hinput])]
    rfl
  | cons tok rest =>
    simp only [stepRun, inRead, offerMore_input, hinput, List.cons_append]
    exact takeToken_mapEnv (Env.offerMore cs toks ans) tok (withInput rest s)

theorem outWrite_offerMore (h : s.env.answers = [] → ans = []) (b : Byte) :
    outWrite b (s.offerMore cs toks ans) = (outWrite b s).map (Prod.map id (State.offerMore cs toks ans)) := by
  cases hanswers : s.env.answers with
  | nil =>
    rw [outWrite_eq_none.mpr hanswers, outWrite_eq_none.mpr (by simp [hanswers, h hanswers])]
    rfl
  | cons a rest =>
    simp only [outWrite, offerMore_answers, hanswers, List.cons_append]
    cases a <;> rfl

theorem stepEmit_offerMore (h : s.env.answers = [] → ans = []) :
    stepEmit (s.offerMore cs toks ans) = onNext (State.offerMore cs toks ans) (stepEmit s) := by
  simp only [stepEmit, offerMore_oidx, offerMore_olen, offerMore_obuf, outWrite_offerMore h]
  split
  · cases s.obuf[s.oidx.val] with
    | none => rfl
    | some b =>
      dsimp only
      match outWrite b s with
      | none => rfl
      | some (.ok, t) => exact congrArg Host.Outcome.next (emitOk_mapEnv _ _ t)
      | some (.err, t) => rfl
  · rfl

/-- A step commutes with offers behind what the ports hold, but for an offer that the block waits for. -/
theorem step_offerMore (hcmds : s.phase = .idle → s.env.cmds = [] → cs = [])
    (hinput : s.phase = .run → s.env.input = [] → toks = []) (hanswers : s.phase = .emit → s.env.answers = [] → ans = []) :
    step (s.offerMore cs toks ans) = onNext (State.offerMore cs toks ans) (step s) := by
  cases hrst : rstAsserted s with
  | true =>
    rw [step_of_rstAsserted hrst, step_of_rstAsserted (s := s.offerMore cs toks ans) hrst]
    rfl
  | false =>
    rw [step_of_not_rstAsserted hrst, step_of_not_rstAsserted (s := s.offerMore cs toks ans) hrst]
    simp only [passRst_offerMore, stepPhase, offerMore_phase, passRst_phase]
    cases hp : s.phase with
    | idle => exact stepIdle_offerMore (s := passRst s) (hcmds hp)
    | resp => exact stepResp_offerMore (s := passRst s)
    | run => exact stepRun_offerMore (s := passRst s) (hinput hp)
    | emit => exact stepEmit_offerMore (s := passRst s) (hanswers hp)

end

/-- Settles O57: each is one offer behind what the ports hold. -/
theorem laterOffersDoNotChangeTheStep : Obligations.LaterOffersDoNotChangeTheStep := by
  refine fun s => ⟨fun c h => ?_, fun tok h => ?_, fun a h => ?_⟩
  · rw [offerCommand_eq_offerMore]
    exact step_offerMore (fun hp hnil => absurd hnil (h hp)) (fun _ _ => rfl) (fun _ _ => rfl)
  · rw [offerToken_eq_offerMore]
    exact step_offerMore (fun _ _ => rfl) (fun hp hnil => absurd hnil (h hp)) (fun _ _ => rfl)
  · rw [offerAnswer_eq_offerMore]
    exact step_offerMore (fun _ _ => rfl) (fun _ _ => rfl) (fun hp hnil => absurd hnil (h hp))

end Sys2Proof.Machine
